-- ==== Sys2Proof/Word.lean ====
section
/-! DEFINITION. The plain value types of the OSM-RD/IMU frame codec: bytes, half words and words
(`00_scope.md` R8: every value is a `u8`, a `u16`, a `u32`, a byte sequence, a Boolean or a member
of an enumeration), the two directions of a frame, and the closed enumeration `CommandType`. -/

namespace Sys2Proof

/-- A `u8` (R8). -/
abbrev Byte := BitVec 8

/-- A `u16` (R8). -/
abbrev Half := BitVec 16

/-- A `u32` (R8). -/
abbrev Word := BitVec 32

/-- The stream a frame is on. Direction is not encoded in a frame (R110): the encoder serialises any
code and the decoder frames any type, so it is an operand of the instruction, not a field of its
bytes. DESIGN CHOICE (log 1): safe. -/
inductive Dir where
  | outbound   -- host to device: ENC and Send
  | inbound    -- device to host: DEC and DISP
  deriving DecidableEq, Repr

/-- The sixteen members of the "closed enumeration shared by both directions" (R83). -/
inductive CommandType where
  | ack
  | nack
  | readConfiguration
  | writeConfiguration
  | readDateTime
  | writeDateTime
  | readBatteryStatus
  | showYourself
  | stopSendData
  | startSendData
  | stopSendLog
  | startSendLog
  | getData
  | sendData
  | sendLog
  | unknown
  deriving DecidableEq, Repr

end Sys2Proof
end

