-- ==== Sys2Proof/Config.lean ====
section
/-! DEFINITION. The implementation parameters of `00_scope.md` R7 that a rule of the model reads.
All are fixed by the spec. `RESYNC_POLICY` (abort the rest of the chunk) and `ZLEN_COMPLETES`
(false) are fixed too (R7, C10, I3, I4) and stand in the rules themselves, in
`Machine.runBytes` and `Machine.isComplete`. No parameter is a free value: what the spec leaves to
the environment stands in `Machine.State` as plain data. -/

namespace Sys2Proof.Config

/-- `MAGIC`, the character `'*'` (R7, R56). -/
abbrev magic : Byte := 0x2A#8

/-- `HEADER_LEN`: magic, type, length high, length low (R7, R80). -/
abbrev headerLen : Nat := 4

/-- `MAX_PAYLOAD` (R7). -/
abbrev maxPayload : Nat := 65535

/-- `DATETIME_RD_LEN`, the bytes of a date-time inbound (R7, C1). -/
abbrev dateTimeReadLen : Nat := 7

/-- `U32_LEN`, the bytes of the battery value (R7, R90). -/
abbrev u32Len : Nat := 4

end Sys2Proof.Config
end

