-- ==== Sys2Proof/Syntax.lean ====
section
/-! DEFINITION. The instructions: one constructor for each of the 23 rows of
`spec/opcode_table.json` (`30_encoding.md` R86). The sixteen `FRAME` rows carry the direction and
the payload; the six `ACK_SUB` rows and the `NACK` row have taken `payload[0]` (the `original` byte,
R107, R108) out of it. A frame's `length` field is the number of its payload bytes (R82) and is not
a separate operand. -/

namespace Sys2Proof

/-- A frame of the protocol, as an instruction of the engine. -/
inductive Instr where
  /-- Row `Ack`, code 0 (R91). -/
  | ack (d : Dir) (payload : List Byte)
  /-- Row `Nack`, code 1 (R92). -/
  | nack (d : Dir) (payload : List Byte)
  /-- Row `ReadConfiguration`, code 2 (R93). -/
  | readConfiguration (d : Dir) (payload : List Byte)
  /-- Row `WriteConfiguration`, code 3 (R94). -/
  | writeConfiguration (d : Dir) (payload : List Byte)
  /-- Row `ReadDateTime`, code 4 (R95). -/
  | readDateTime (d : Dir) (payload : List Byte)
  /-- Row `WriteDateTime`, code 5 (R96). -/
  | writeDateTime (d : Dir) (payload : List Byte)
  /-- Row `ReadBatteryStatus`, code 6 (R97). -/
  | readBatteryStatus (d : Dir) (payload : List Byte)
  /-- Row `ShowYourself`, code 7 (R98). -/
  | showYourself (d : Dir) (payload : List Byte)
  /-- Row `StopSendData`, code 8 (R99). -/
  | stopSendData (d : Dir) (payload : List Byte)
  /-- Row `StartSendData`, code 9 (R100). -/
  | startSendData (d : Dir) (payload : List Byte)
  /-- Row `StopSendLog`, code 10 (R101). -/
  | stopSendLog (d : Dir) (payload : List Byte)
  /-- Row `StartSendLog`, code 11 (R102). -/
  | startSendLog (d : Dir) (payload : List Byte)
  /-- Row `GetData`, code 12 (R103). -/
  | getData (d : Dir) (payload : List Byte)
  /-- Row `SendData`, code 50 (R104). -/
  | sendData (d : Dir) (payload : List Byte)
  /-- Row `SendLog`, code 51 (R105). -/
  | sendLog (d : Dir) (payload : List Byte)
  /-- Row `Unknown`: a type byte that is not an assigned code (R106). -/
  | unknown (d : Dir) (ftype : Byte) (payload : List Byte)
  /-- Row `Ack.ReadConfiguration`, `original` 2 (R107, R214). -/
  | ackReadConfiguration (d : Dir) (argument : List Byte)
  /-- Row `Ack.WriteConfiguration`, `original` 3 (R107, R215). -/
  | ackWriteConfiguration (d : Dir) (argument : List Byte)
  /-- Row `Ack.ReadDateTime`, `original` 4 (R107, R216). -/
  | ackReadDateTime (d : Dir) (argument : List Byte)
  /-- Row `Ack.WriteDateTime`, `original` 5 (R107, R217). -/
  | ackWriteDateTime (d : Dir) (argument : List Byte)
  /-- Row `Ack.ReadBatteryStatus`, `original` 6 (R107, R218). -/
  | ackReadBatteryStatus (d : Dir) (argument : List Byte)
  /-- Row `Ack.other`, any other `original` (R107, R219). -/
  | ackOther (d : Dir) (original : Byte) (argument : List Byte)
  /-- Row `Nack.any`; `rest` is `error_code` and what follows it, if anything does (R108, R220). -/
  | nackAny (d : Dir) (original : Byte) (rest : List Byte)
  deriving DecidableEq, Repr

end Sys2Proof
end

