-- ==== Sys2Proof/WellFormed.lean ====
section
/-! DEFINITION. Which instruction terms are frames: the payload fits the 16-bit `length` field
(`30_encoding.md` R80, R81), the type byte of `unknown` is none of the fifteen codes (R84, R106)
and the `original` byte of `ackOther` is none of the five that have a sub-format (R86, R107). -/

namespace Sys2Proof

/-- The byte is one of the fifteen type codes (R83): 0 to 12, 50, 51. -/
def isAssignedCode (b : Byte) : Bool :=
  b.toNat ≤ 12 || b.toNat == 50 || b.toNat == 51

/-- The byte selects one of the five named Ack sub-formats (R86, R107): 2 to 6. -/
def isSubFormatOriginal (b : Byte) : Bool :=
  2 ≤ b.toNat && b.toNat ≤ 6

/-- The payload fits the `length` field (R80). -/
def fitsPayload (p : List Byte) : Bool :=
  p.length ≤ Config.maxPayload

/-- The argument fits beside the `original` byte: at most 65534 bytes (R107, R195). -/
def fitsArgument (a : List Byte) : Bool :=
  a.length < Config.maxPayload

/-- The term is a frame. -/
def Instr.wellFormed : Instr → Bool
  | .ack _ p | .nack _ p | .readConfiguration _ p | .writeConfiguration _ p
  | .readDateTime _ p | .writeDateTime _ p | .readBatteryStatus _ p | .showYourself _ p
  | .stopSendData _ p | .startSendData _ p | .stopSendLog _ p | .startSendLog _ p
  | .getData _ p | .sendData _ p | .sendLog _ p => fitsPayload p
  | .unknown _ t p => !isAssignedCode t && fitsPayload p
  | .ackReadConfiguration _ a | .ackWriteConfiguration _ a | .ackReadDateTime _ a
  | .ackWriteDateTime _ a | .ackReadBatteryStatus _ a => fitsArgument a
  | .ackOther _ o a => !isSubFormatOriginal o && fitsArgument a
  | .nackAny _ _ r => fitsArgument r

end Sys2Proof
end

