-- ==== Sys2Proof/Decode.lean ====
section
/-! DEFINITION. The wire format (`30_encoding.md`): the type codes, the big-endian fields, the frame
bytes, the encoder and the decoder of instructions.

The table has two levels of rows (R86). The `FRAME` rows match on the header word `H`; the `ACK_SUB`
and `NACK` rows match on the first five bytes `V` and so need `length >= 1`. `decodeFrame` reads a
frame at the first level; `refine` goes on to the second, the branch on `original` (R107, R213);
`decode` does both. DESIGN CHOICE (log 16): safe. -/

namespace Sys2Proof

/-! ## Type codes -/

/-- `CmdOf` (R84), total: every byte but the fifteen codes is `Unknown`. -/
def cmdOf (b : Byte) : CommandType :=
  match b.toNat with
  | 0 => .ack
  | 1 => .nack
  | 2 => .readConfiguration
  | 3 => .writeConfiguration
  | 4 => .readDateTime
  | 5 => .writeDateTime
  | 6 => .readBatteryStatus
  | 7 => .showYourself
  | 8 => .stopSendData
  | 9 => .startSendData
  | 10 => .stopSendLog
  | 11 => .startSendLog
  | 12 => .getData
  | 50 => .sendData
  | 51 => .sendLog
  | _ => .unknown

/-- `CodeOf` (R85), not defined on `Unknown`. -/
def codeOf : CommandType → Option Byte
  | .ack => some 0x00#8
  | .nack => some 0x01#8
  | .readConfiguration => some 0x02#8
  | .writeConfiguration => some 0x03#8
  | .readDateTime => some 0x04#8
  | .writeDateTime => some 0x05#8
  | .readBatteryStatus => some 0x06#8
  | .showYourself => some 0x07#8
  | .stopSendData => some 0x08#8
  | .startSendData => some 0x09#8
  | .stopSendLog => some 0x0A#8
  | .startSendLog => some 0x0B#8
  | .getData => some 0x0C#8
  | .sendData => some 0x32#8
  | .sendLog => some 0x33#8
  | .unknown => none

/-- The direction the source's operations show for a type (R91 to R106): Ack, Nack, SendData and
SendLog come from the device, the eleven types 2 to 12 go to it, and a byte with no command can only
arrive (R106, R121). -/
def CommandType.direction : CommandType → Dir
  | .ack | .nack | .sendData | .sendLog | .unknown => .inbound
  | .readConfiguration | .writeConfiguration | .readDateTime | .writeDateTime
  | .readBatteryStatus | .showYourself | .stopSendData | .startSendData
  | .stopSendLog | .startSendLog | .getData => .outbound

/-! ## Byte order (`20_memory.md` R50): big-endian -/

/-- `v[15:8]` (R9, R88). -/
def hiByte (v : Half) : Byte := v.extractLsb' 8 8

/-- `v[7:0]` (R9, R88). -/
def loByte (v : Half) : Byte := v.extractLsb' 0 8

/-- `(zext_16(b0) << 8) | zext_16(b1)` (R50, R88, R89). -/
def be16 (b0 b1 : Byte) : Half := (b0.zeroExtend 16 <<< 8) ||| b1.zeroExtend 16

/-- `(zext_32(b0) << 24) | (zext_32(b1) << 16) | (zext_32(b2) << 8) | zext_32(b3)` (R50, R90). -/
def be32 (b0 b1 b2 b3 : Byte) : Word :=
  (b0.zeroExtend 32 <<< 24) ||| (b1.zeroExtend 32 <<< 16) ||| (b2.zeroExtend 32 <<< 8)
    ||| b3.zeroExtend 32

/-! ## The frame (R80) -/

/-- The bytes of the frame with type byte `code` and payload `p`: magic, type, length big-endian,
payload (R80, R88, R120). -/
def frameBytes (code : Byte) (p : List Byte) : List Byte :=
  let len := BitVec.ofNat 16 p.length
  Config.magic :: code :: hiByte len :: loByte len :: p

/-- The instruction's direction. -/
def Instr.dir : Instr → Dir
  | .ack d _ | .nack d _ | .readConfiguration d _ | .writeConfiguration d _
  | .readDateTime d _ | .writeDateTime d _ | .readBatteryStatus d _ | .showYourself d _
  | .stopSendData d _ | .startSendData d _ | .stopSendLog d _ | .startSendLog d _
  | .getData d _ | .sendData d _ | .sendLog d _ | .unknown d _ _
  | .ackReadConfiguration d _ | .ackWriteConfiguration d _ | .ackReadDateTime d _
  | .ackWriteDateTime d _ | .ackReadBatteryStatus d _ | .ackOther d _ _ | .nackAny d _ _ => d

/-- The instruction's type byte (R83). -/
def Instr.ftype : Instr → Byte
  | .ack _ _ | .ackReadConfiguration _ _ | .ackWriteConfiguration _ _ | .ackReadDateTime _ _
  | .ackWriteDateTime _ _ | .ackReadBatteryStatus _ _ | .ackOther _ _ _ => 0x00#8
  | .nack _ _ | .nackAny _ _ _ => 0x01#8
  | .readConfiguration _ _ => 0x02#8
  | .writeConfiguration _ _ => 0x03#8
  | .readDateTime _ _ => 0x04#8
  | .writeDateTime _ _ => 0x05#8
  | .readBatteryStatus _ _ => 0x06#8
  | .showYourself _ _ => 0x07#8
  | .stopSendData _ _ => 0x08#8
  | .startSendData _ _ => 0x09#8
  | .stopSendLog _ _ => 0x0A#8
  | .startSendLog _ _ => 0x0B#8
  | .getData _ _ => 0x0C#8
  | .sendData _ _ => 0x32#8
  | .sendLog _ _ => 0x33#8
  | .unknown _ t _ => t

/-- The instruction's payload: for a sub-format, the `original` byte and what follows it (R107,
R108). -/
def Instr.payload : Instr → List Byte
  | .ack _ p | .nack _ p | .readConfiguration _ p | .writeConfiguration _ p
  | .readDateTime _ p | .writeDateTime _ p | .readBatteryStatus _ p | .showYourself _ p
  | .stopSendData _ p | .startSendData _ p | .stopSendLog _ p | .startSendLog _ p
  | .getData _ p | .sendData _ p | .sendLog _ p | .unknown _ _ p => p
  | .ackReadConfiguration _ a => 0x02#8 :: a
  | .ackWriteConfiguration _ a => 0x03#8 :: a
  | .ackReadDateTime _ a => 0x04#8 :: a
  | .ackWriteDateTime _ a => 0x05#8 :: a
  | .ackReadBatteryStatus _ a => 0x06#8 :: a
  | .ackOther _ o a => o :: a
  | .nackAny _ o r => o :: r

/-- The term is of one of the two second-level formats `ACK_SUB` and `NACK` (R86). -/
def Instr.isSubFormat : Instr → Bool
  | .ack _ _ | .nack _ _ | .readConfiguration _ _ | .writeConfiguration _ _
  | .readDateTime _ _ | .writeDateTime _ _ | .readBatteryStatus _ _ | .showYourself _ _
  | .stopSendData _ _ | .startSendData _ _ | .stopSendLog _ _ | .startSendLog _ _
  | .getData _ _ | .sendData _ _ | .sendLog _ _ | .unknown _ _ _ => false
  | .ackReadConfiguration _ _ | .ackWriteConfiguration _ _ | .ackReadDateTime _ _
  | .ackWriteDateTime _ _ | .ackReadBatteryStatus _ _ | .ackOther _ _ _ | .nackAny _ _ _ => true

/-! ## Decoding -/

/-- Why bytes are no frame. -/
inductive DecodeError where
  /-- The first byte is not the magic (R86, R109 (a)). -/
  | notMagic (b : Byte)
  /-- Fewer than four bytes: the header is not whole (R80). -/
  | shortHeader
  /-- Fewer payload bytes than `length` announces (R82). -/
  | shortPayload (length : Nat)
  deriving DecidableEq, Repr

/-- The instruction of the `FRAME` row that a type byte selects (R86: the fifteen named rows by
their code, `Unknown` by default). -/
def frameInstr (d : Dir) (code : Byte) (p : List Byte) : Instr :=
  match cmdOf code with
  | .ack => .ack d p
  | .nack => .nack d p
  | .readConfiguration => .readConfiguration d p
  | .writeConfiguration => .writeConfiguration d p
  | .readDateTime => .readDateTime d p
  | .writeDateTime => .writeDateTime d p
  | .readBatteryStatus => .readBatteryStatus d p
  | .showYourself => .showYourself d p
  | .stopSendData => .stopSendData d p
  | .startSendData => .startSendData d p
  | .stopSendLog => .stopSendLog d p
  | .startSendLog => .startSendLog d p
  | .getData => .getData d p
  | .sendData => .sendData d p
  | .sendLog => .sendLog d p
  | .unknown => .unknown d code p

/-- The `ACK_SUB` row that `original` selects (R86, R107: five by their byte, `Ack.other` by
default). -/
def ackInstr (d : Dir) (original : Byte) (argument : List Byte) : Instr :=
  match original.toNat with
  | 2 => .ackReadConfiguration d argument
  | 3 => .ackWriteConfiguration d argument
  | 4 => .ackReadDateTime d argument
  | 5 => .ackWriteDateTime d argument
  | 6 => .ackReadBatteryStatus d argument
  | _ => .ackOther d original argument

/-- From the `FRAME` row to the second-level row, where there is one: an Ack or a Nack whose payload
has an `original` byte (R86: "Sub-format rows need `length >= 1` to exist at all"). -/
def refine : Instr → Instr
  | .ack d (o :: a) => ackInstr d o a
  | .nack d (o :: r) => .nackAny d o r
  | i => i

/-- The type byte, the payload and the bytes after the frame (R80, R81). -/
def splitFrame : List Byte → Except DecodeError (Byte × List Byte × List Byte)
  | m :: t :: h :: l :: rest =>
    if m ≠ Config.magic then .error (.notMagic m)
    else if rest.length < (be16 h l).toNat then .error (.shortPayload (be16 h l).toNat)
    else .ok (t, rest.take (be16 h l).toNat, rest.drop (be16 h l).toNat)
  | m :: _ => if m ≠ Config.magic then .error (.notMagic m) else .error .shortHeader
  | [] => .error .shortHeader

/-- Decoding at the level of the `FRAME` rows: the instruction and the bytes after it. -/
def decodeFrame (d : Dir) (bs : List Byte) : Except DecodeError (Instr × List Byte) :=
  match splitFrame bs with
  | .ok (t, p, rest) => .ok (frameInstr d t p, rest)
  | .error e => .error e

/-- Decoding to the most specific row (R86). -/
def decode (d : Dir) (bs : List Byte) : Except DecodeError (Instr × List Byte) :=
  match decodeFrame d bs with
  | .ok (i, rest) => .ok (refine i, rest)
  | .error e => .error e

/-- The instruction, if the bytes are exactly one frame. -/
def decodeExact (d : Dir) (bs : List Byte) : Option Instr :=
  match decode d bs with
  | .ok (i, []) => some i
  | _ => none

/-- The words of an instruction: its frame's bytes (R80, R120). -/
def encode (i : Instr) : List Byte := frameBytes i.ftype i.payload

/-! ## The table's numbering (R86) -/

/-- `k` bytes of the number `w`, the most significant first. -/
def bigEndianBytes (w : Nat) : Nat → List Byte
  | 0 => []
  | k + 1 => BitVec.ofNat 8 (w >>> (8 * k)) :: bigEndianBytes w k

/-- How many bytes the frame that begins with these bytes has, as far as they tell: the header's
four and `length` (R81). -/
def announcedSize : List Byte → Nat
  | _ :: _ :: h :: l :: _ => Config.headerLen + (be16 h l).toNat
  | _ => Config.headerLen

/-- The bytes of an instruction whose first `nbits` bits are `w` and whose other bits are 0, in
stream order. The table's number is big-endian over the stream bytes: `H` has the first byte in bits
31 to 24, `V` in bits 39 to 32 (R80, R86). DEDUCED (log 22): safe. -/
def tableBytes (nbits w : Nat) : List Byte :=
  let bs := bigEndianBytes w (nbits / 8)
  bs ++ List.replicate (announcedSize bs - bs.length) 0x00#8

/-- The direction of the frame the bytes begin, as R91 to R106 state it for its type. -/
def tableDir : List Byte → Dir
  | _ :: t :: _ => (cmdOf t).direction
  | _ => .inbound

/-- The instruction the decoder reads from a word of the opcode table: a 32-bit word `H` is read at
the level of the `FRAME` rows, a longer one at the level of the sub-formats (R86). A word whose
`length` field ends the frame before the word ends is refused (a sub-format word with `length = 0`:
log 16). -/
def decodeTableWord (nbits w : Nat) : Option Instr :=
  let bs := tableBytes nbits w
  if nbits ≤ 32 then
    match decodeFrame (tableDir bs) bs with
    | .ok (i, []) => some i
    | _ => none
  else decodeExact (tableDir bs) bs

end Sys2Proof
end

