-- ==== Sys2Proof/Machine/State.lean ====
section
/-! DEFINITION. The state of the engine as plain data (`10_state.md` R20, R37), with what the spec
gives the environment (`rxq`, R33) and a run's inputs and outputs (`70_reset_and_hazards.md` R303).
ENC, CODEC and DISP hold no state (R34). -/

namespace Sys2Proof.Machine

/-! ## The payload buffer (R24, R55, R66) -/

/-- A byte-addressed store: (index, byte) pairs, indices strictly rising. An index that is not
listed holds NO VALUE (R24: "A model must not give unwritten slots a value"). -/
abbrev Memory := List Host.Cell

/-! ## Values that operations exchange -/

/-- `DateTimeValue` (R190). -/
structure DateTimeValue where
  year : Half
  month : Byte
  day : Byte
  hour : Byte
  minute : Byte
  second : Byte
  deriving DecidableEq, Repr

/-- A finished frame (R163); its magic is implicit (R25). -/
structure Frame where
  ftype : Byte
  length : Half
  payload : List Byte
  deriving DecidableEq, Repr

/-- The closed set of error kinds (R240, R250). `frameDesync` is observed as the `desync` output of
a chunk's result (R243) and `deviceNack` as the event `commandFailed` (R246); `zeroLengthOverrun`
as the result `overrun` (R247). -/
inductive ErrorKind where
  | argumentTooLarge
  | payloadLengthMismatch
  | frameDesync
  | transportError
  | transportTimeout
  | deviceNack
  | zeroLengthOverrun
  | unencodableCommand
  | refused
  deriving DecidableEq, Repr

/-- What `Dispatch` produces (R210): one constructor per sink notification, `ignored`, and
`error` for `Error(PayloadLengthMismatch)`. -/
inductive Event where
  | receivedData (payload : List Byte)
  | receivedLog (payload : List Byte)
  | readConfiguration (argument : List Byte)
  | writeConfiguration
  | readDateTime (value : DateTimeValue)
  | writeDateTime
  | batteryStatus (value : Word)
  | commandFailed (original : CommandType) (errorCode : Byte)
  | ignored
  | error (kind : ErrorKind)
  deriving DecidableEq, Repr

/-- Who holds the exclusive access (R35). -/
inductive Lock where
  | free
  | rx   -- a chunk in progress
  | tx   -- a send in progress
  deriving DecidableEq, Repr

/-- What the transport's `write` answers (R258). -/
inductive WriteAnswer where
  | ok
  | transportError
  deriving DecidableEq, Repr

/-- One call of the transport's `write`: the bytes handed over, as one sequence, and the answer.
How much of a failed write reached the wire is unknown to the hardware (R133, U12) and is not
said here (log 12). -/
structure WriteRecord where
  bytes : List Byte
  answer : WriteAnswer
  deriving DecidableEq, Repr

/-- The result of an operation: what stands after `=>` in a trace (R11, R135). -/
inductive Result where
  /-- `ProcessChunk` returned `Ok(frames, desync)` (R150). -/
  | chunk (frames : List Frame) (desync : Bool)
  /-- `ProcessChunk` returned `Fault(ZeroLengthOverrun)` with the frames so far (R150, R157). -/
  | overrun (frames : List Frame)
  /-- `Send` returned `Ok` (R132). -/
  | sent
  /-- Bytes from `Encode`, `EncodeCmd` or `EncodeDateTimeForWrite` (R120, R121, R191). -/
  | bytes (bs : List Byte)
  /-- A value from `DecodeDateTime` (R192). -/
  | dateTime (value : DateTimeValue)
  /-- A value from `DecodeU32BE` (R193). -/
  | word (value : Word)
  /-- An event from a call of `Dispatch` that is not the receiver's (R211). -/
  | event (e : Event)
  /-- `Err(kind)`, or the condition `TransportTimeout` (R240, R245). -/
  | error (kind : ErrorKind)
  deriving DecidableEq, Repr

/-- The nine calls of the outbound command surface (R122 to R130). -/
inductive HostCall where
  /-- `get_date_time()` (R122). -/
  | getDateTime
  /-- `set_date_time(dt, day_of_week)` (R123). -/
  | setDateTime (dt : DateTimeValue) (dayOfWeek : Byte)
  /-- `read_configuration()` (R124). -/
  | readConfiguration
  /-- `write_configuration(blob)` (R125). -/
  | writeConfiguration (blob : List Byte)
  /-- `read_battery_status()` (R126). -/
  | readBatteryStatus
  /-- `stop_send_data()` (R127). -/
  | stopSendData
  /-- `start_send_data()` (R128). -/
  | startSendData
  /-- `show_yourself()` (R129). -/
  | showYourself
  /-- `get_sample_data()` (R130). -/
  | getSampleData
  deriving DecidableEq, Repr

/-- What the receiver, the sender and the environment do next (R14.1, R135, R251). DESIGN CHOICE
(log 3): safe. -/
inductive Action where
  /-- `RESET` (R281). -/
  | reset
  /-- `RX [b ..]`: the transport delivers one chunk (R135, R150). -/
  | rx (chunk : List Byte)
  /-- One byte of a chunk, `last` on its final byte (R166). -/
  | byteIn (b : Byte) (last : Bool)
  /-- The device's bytes reach the transport: they join `rxq` (R33, R64). -/
  | arrive (bs : List Byte)
  /-- `on_bytes`: the transport removes the first `n` bytes of `rxq` and delivers them (R260). -/
  | onBytes (n : Nat)
  /-- `ENCODE cmd args` (R120). -/
  | encode (cmd : Byte) (args : Option (List Byte))
  /-- `EncodeCmd(c, args)` (R121). -/
  | encodeCmd (c : CommandType) (args : Option (List Byte))
  /-- `SEND cmd args` (R132). -/
  | send (cmd : Byte) (args : Option (List Byte))
  /-- One of the nine calls of the outbound command surface (R122 to R130). -/
  | call (c : HostCall)
  /-- A call of `Dispatch` (R211, R285). -/
  | dispatch (f : Frame)
  /-- A call of `EncodeDateTimeForWrite` (R191, R285). -/
  | encodeDateTimeForWrite (dt : DateTimeValue) (dayOfWeek : Byte)
  /-- A call of `DecodeDateTime` (R192, R285). -/
  | decodeDateTime (a : List Byte)
  /-- A call of `DecodeU32BE` (R193, R285). -/
  | decodeU32BE (a : List Byte)
  /-- `CLOSE` (R284). -/
  | close
  /-- `TIMEOUT` (R245). -/
  | timeout
  /-- From now on the transport's `write` answers so (R258). -/
  | writeAnswers (a : WriteAnswer)
  deriving DecidableEq, Repr

/-! ## The state -/

/-- DEC's working state (R20 to R26). -/
structure PartialFrame where
  /-- `pf.bytes_consumed`, 0 to 65539 (R21). A `Nat`: it never wraps (D5; log 21). -/
  bytesConsumed : Nat
  /-- `pf.ftype`, the raw type byte (R22). -/
  ftype : Byte
  /-- `pf.length` (R23). -/
  length : Half
  /-- `pf.payload` (R24). -/
  payload : Memory
  deriving DecidableEq, Repr

/-- The empty PartialFrame (R26): all zero, no slot holds a value. -/
def PartialFrame.empty : PartialFrame :=
  { bytesConsumed := 0, ftype := 0x00#8, length := 0x0000#16, payload := [] }

/-- The whole state. -/
structure State where
  /-- The PartialFrame (R20). -/
  pf : PartialFrame
  /-- `dec.fault`, sticky (R29). -/
  decFault : Bool
  /-- `dec.closed`, sticky (R30). -/
  decClosed : Bool
  /-- `dec.drop` (R31, R166). -/
  decDrop : Bool
  /-- `lock` (R35, R62). -/
  lock : Lock
  /-- `rxq`, the transport's unread input (R33). -/
  rxq : List Byte
  /-- Environment input: what `write` answers when it is called (R258; log 5). -/
  writeAnswer : WriteAnswer
  /-- Environment input: what is done next, oldest first (R303; log 3). -/
  todo : List Action
  /-- Output: the events of DISP, oldest first (R210, R303; log 11). -/
  events : List Event
  /-- Output: the calls of `write`, oldest first (R303; log 11). -/
  written : List WriteRecord
  /-- Output: the results of the operations, oldest first (R135; log 11). -/
  results : List Result
  deriving DecidableEq, Repr

/-- The state right after reset (R37, R280). `rxq`, `writeAnswer` and `todo` belong to the
environment and have no reset value in the spec: empty, `ok` and empty are DESIGN CHOICES (logs 4,
5, 3), unsafe for a statement that would rest on them. -/
def State.reset : State :=
  { pf := .empty
    decFault := false
    decClosed := false
    decDrop := false
    lock := .free
    rxq := []
    writeAnswer := .ok
    todo := []
    events := []
    written := []
    results := [] }

/-! ## One update per field -/

def State.setPf (s : State) (p : PartialFrame) : State := { s with pf := p }
def State.setFault (s : State) (b : Bool) : State := { s with decFault := b }
def State.setClosed (s : State) (b : Bool) : State := { s with decClosed := b }
def State.setDrop (s : State) (b : Bool) : State := { s with decDrop := b }
def State.setLock (s : State) (l : Lock) : State := { s with lock := l }
def State.setRxq (s : State) (q : List Byte) : State := { s with rxq := q }
def State.setWriteAnswer (s : State) (a : WriteAnswer) : State := { s with writeAnswer := a }
def State.setTodo (s : State) (t : List Action) : State := { s with todo := t }
def State.addEvents (s : State) (es : List Event) : State := { s with events := s.events ++ es }
def State.addWritten (s : State) (w : WriteRecord) : State := { s with written := s.written ++ [w] }
def State.addResult (s : State) (r : Result) : State := { s with results := s.results ++ [r] }

/-! ## Why a step stops -/

/-- The faults of the model. The hardware's own faults are results and flags in a next state
(R253). -/
inductive Fault where
  /-- Raised by the emission of a frame (R159) when a payload slot it copies holds no value (R24).
  No state that meets the invariant of R38 raises it. Safe: the machine stops where the spec gives
  no value. -/
  | slotWithoutValue (index : Nat)
  deriving DecidableEq, Repr

/-- The refusals of the model. -/
inductive Refusal where
  /-- Raised by an arm of `exec` for an instruction that has no meaning yet: safe. No arm raises
  it. -/
  | notModelled (mnemonic : String)
  /-- Raised by the inbound meaning of a term whose payload is longer than any frame's (R80: the
  `length` field has 16 bits). No bytes decode to such a term. Safe. -/
  | noSuchFrame (length : Nat)
  deriving DecidableEq, Repr

end Sys2Proof.Machine
end

