-- ==== Sys2Proof/Machine/Flags.lean ====
section
/-! DEFINITION. The two conditions of DEC, computed and consumed inside one step and never stored
(`10_state.md` R32), and the tests on a PartialFrame that the rules name. -/

namespace Sys2Proof.Machine

/-- The magic test of state 0 (R32, R151, R152). -/
def isMagic (b : Byte) : Bool := b == Config.magic

/-- The completion predicate (R158): `pf.length > 0 and pf.bytes_consumed - 4 = pf.length`. The
subtraction is on integers and does not wrap, so the second half reads `bytes_consumed = 4 +
length`. -/
def isComplete (pf : PartialFrame) : Bool :=
  0 < pf.length.toNat && pf.bytesConsumed == Config.headerLen + pf.length.toNat

/-- In state `n >= 4`, slot `n - 4` exists (R156; otherwise R157). -/
def slotExists (pf : PartialFrame) : Bool :=
  pf.bytesConsumed - Config.headerLen < pf.length.toNat

/-- Wedged (R13, R160). -/
def isWedged (pf : PartialFrame) : Bool :=
  pf.bytesConsumed == Config.headerLen && pf.length == 0x0000#16

end Sys2Proof.Machine
end

