-- ==== Sys2Proof/Machine/Operands.lean ====
section
/-! DEFINITION. ENC's pure encode (`40_frame_encoder.md` R120, R121) and the Payload Codec
(`42_payload_codec.md`): how operands become bytes and bytes become operands. No range is checked
(R198). -/

namespace Sys2Proof.Machine

/-- The argument bytes, an absent argument being none (R120 (a)). -/
def argBytes : Option (List Byte) → List Byte
  | none => []
  | some a => a

/-- `Encode(cmd, args)` (R120). Any type byte is serialised (R120 (f)). -/
def encodeArgs (cmd : Byte) (args : Option (List Byte)) : Except ErrorKind (List Byte) :=
  if Config.maxPayload < (argBytes args).length then .error .argumentTooLarge
  else .ok (frameBytes cmd (argBytes args))

/-- `EncodeCmd(c, args)` (R121): `Unknown` has no byte and is refused. -/
def encodeCmd (c : CommandType) (args : Option (List Byte)) : Except ErrorKind (List Byte) :=
  match codeOf c with
  | some code => encodeArgs code args
  | none => .error .unencodableCommand

/-- `EncodeDateTimeForWrite(dt, dow)`, 8 bytes (R191). -/
def encodeDateTimeForWrite (dt : DateTimeValue) (dayOfWeek : Byte) : List Byte :=
  [hiByte dt.year, loByte dt.year, dt.month, dt.day, dt.hour, dt.minute, dt.second, dayOfWeek]

/-- `DecodeDateTime(a)`: exactly 7 bytes (R192). -/
def decodeDateTime : List Byte → Except ErrorKind DateTimeValue
  | [y1, y0, mo, d, h, mi, se] =>
    .ok { year := be16 y1 y0, month := mo, day := d, hour := h, minute := mi, second := se }
  | _ => .error .payloadLengthMismatch

/-- `DecodeU32BE(a)`: exactly 4 bytes (R193). -/
def decodeU32BE : List Byte → Except ErrorKind Word
  | [b0, b1, b2, b3] => .ok (be32 b0 b1 b2 b3)
  | _ => .error .payloadLengthMismatch

/-- `SplitAck(payload)`: `original` and `argument` (R196). `none` when there is no `original` byte,
which no emitted frame shows (R163). -/
def splitAck : List Byte → Option (Byte × List Byte)
  | o :: a => some (o, a)
  | [] => none

end Sys2Proof.Machine
end

