-- ==== Sys2Proof/Machine/ResponseDispatcher.lean ====
section
/-! DEFINITION. DISP, the Response Dispatcher (`43_response_dispatch.md`): a pure function from a
completed frame to one event, one definition per branch. -/

namespace Sys2Proof.Machine

/-- Ack of `ReadConfiguration` (R214): the blob, opaque. -/
def ackReadConfigurationEvent (argument : List Byte) : Event := .readConfiguration argument

/-- Ack of `WriteConfiguration` (R215): no data, the argument is ignored. -/
def ackWriteConfigurationEvent (_argument : List Byte) : Event := .writeConfiguration

/-- Ack of `ReadDateTime` (R216): the first 7 argument bytes, the rest ignored (D10). -/
def ackReadDateTimeEvent (argument : List Byte) : Event :=
  if argument.length < Config.dateTimeReadLen then .error .payloadLengthMismatch
  else
    match decodeDateTime (argument.take Config.dateTimeReadLen) with
    | .ok v => .readDateTime v
    | .error k => .error k

/-- Ack of `WriteDateTime` (R217). -/
def ackWriteDateTimeEvent (_argument : List Byte) : Event := .writeDateTime

/-- Ack of `ReadBatteryStatus` (R218): the first 4 argument bytes, the rest ignored (D10). -/
def ackReadBatteryStatusEvent (argument : List Byte) : Event :=
  if argument.length < Config.u32Len then .error .payloadLengthMismatch
  else
    match decodeU32BE (argument.take Config.u32Len) with
    | .ok n => .batteryStatus n
    | .error k => .error k

/-- Ack of anything else (R219): "silently ignored". -/
def ackOtherEvent (_original : Byte) (_argument : List Byte) : Event := .ignored

/-- `DispatchAck` (R213): the branch on `original`. An Ack with no `original` byte is shorter than
every sub-format needs (R91, R107) and is `PayloadLengthMismatch`; no emitted frame is so (R163).
DEDUCED (log 14): safe. -/
def dispatchAck (payload : List Byte) : Event :=
  match splitAck payload with
  | none => .error .payloadLengthMismatch
  | some (original, argument) =>
    match cmdOf original with
    | .readConfiguration => ackReadConfigurationEvent argument
    | .writeConfiguration => ackWriteConfigurationEvent argument
    | .readDateTime => ackReadDateTimeEvent argument
    | .writeDateTime => ackWriteDateTimeEvent argument
    | .readBatteryStatus => ackReadBatteryStatusEvent argument
    | .ack | .nack | .showYourself | .stopSendData | .startSendData | .stopSendLog
    | .startSendLog | .getData | .sendData | .sendLog | .unknown =>
      ackOtherEvent original argument

/-- `DispatchNack` (R220): bytes from index 2 on are ignored. -/
def dispatchNack : List Byte → Event
  | original :: errorCode :: _ => .commandFailed (cmdOf original) errorCode
  | _ => .error .payloadLengthMismatch

/-- `Dispatch(f)` (R211): the branch on the type. -/
def dispatch (f : Frame) : Event :=
  match cmdOf f.ftype with
  | .sendData => .receivedData f.payload
  | .sendLog => .receivedLog f.payload
  | .ack => dispatchAck f.payload
  | .nack => dispatchNack f.payload
  | .unknown => .ignored
  | .readConfiguration | .writeConfiguration | .readDateTime | .writeDateTime
  | .readBatteryStatus | .showYourself | .stopSendData | .startSendData | .stopSendLog
  | .startSendLog | .getData => .ignored

end Sys2Proof.Machine
end

