-- ==== Sys2Proof/Machine/Ops.lean ====
section
/-! DEFINITION. The named operations over the payload buffer, the PartialFrame, the lock and the
transport: DEC's byte step (`41_frame_decoder.md` R161), the chunk operation (R150) and its
byte-serial form (R166), the send sequence (`40_frame_encoder.md` R132), the one fault entry
(`60_exceptions.md` R247) and what leaves it (`70_reset_and_hazards.md` R281), and Close (R284). -/

namespace Sys2Proof.Machine

/-! ## The payload buffer -/

/-- `PayRead(i)` (R10): the byte at index `i`, if the slot holds a value (R24). -/
def payRead : Memory → Nat → Option Byte
  | [], _ => none
  | (a, b) :: m, i => if i = a then some b else if i < a then none else payRead m i

/-- `PayWrite(i, v)` (R10): the slots stay in rising order, the other slots keep what they hold. -/
def payWrite : Memory → Nat → Byte → Memory
  | [], i, v => [(i, v)]
  | (a, b) :: m, i, v =>
    if i = a then (a, v) :: m
    else if i < a then (i, v) :: (a, b) :: m
    else (a, b) :: payWrite m i v

/-- The canonical form: indices strictly rising, the first above `lo` or equal to it. -/
def memoryWfFrom : Nat → Memory → Bool
  | _, [] => true
  | lo, (a, _) :: m => lo ≤ a && memoryWfFrom (a + 1) m

/-- The buffer is in canonical form. -/
def memoryWf (m : Memory) : Bool := memoryWfFrom 0 m

/-- A copy of `n` slots from index `i` on (R159); the index of a slot without value, if one is met
(R24). -/
def payCopy (m : Memory) : Nat → Nat → Except Nat (List Byte)
  | _, 0 => .ok []
  | i, n + 1 =>
    match payRead m i with
    | none => .error i
    | some b =>
      match payCopy m (i + 1) n with
      | .ok bs => .ok (b :: bs)
      | .error j => .error j

/-! ## DEC, one byte (R161) -/

/-- The outcome of `DecByte` (R161); `noValue` is the model's own stop (log 7). -/
inductive ByteResult where
  | proceed
  | emit (f : Frame)
  | desync
  | overrun
  | noValue (index : Nat)
  deriving DecidableEq, Repr

/-- The end of a byte step: the completion predicate (R158), emission and the reset to empty
(R159). -/
def settle (pf : PartialFrame) : PartialFrame × ByteResult :=
  if isComplete pf then
    match payCopy pf.payload 0 pf.length.toNat with
    | .ok p => (.empty, .emit { ftype := pf.ftype, length := pf.length, payload := p })
    | .error i => (pf, .noValue i)
  else (pf, .proceed)

/-- `DecByte(b)` (R161, rules R151 to R159, the tests in the order of R162). `overrun` leaves the
PartialFrame as it was (R157); its flag is set by `takeOverrun`. -/
def decByte (b : Byte) (pf : PartialFrame) : PartialFrame × ByteResult :=
  match pf.bytesConsumed with
  | 0 =>
    if isMagic b then ({ pf with bytesConsumed := 1 }, .proceed)               -- R152
    else (.empty, .desync)                                                      -- R151
  | 1 => ({ pf with ftype := b, bytesConsumed := 2 }, .proceed)                -- R153
  | 2 => ({ pf with length := b.zeroExtend 16 <<< 8, bytesConsumed := 3 }, .proceed)  -- R154
  | 3 =>                                                                        -- R155
    settle { pf with length := pf.length ||| b.zeroExtend 16, bytesConsumed := 4, payload := [] }
  | n =>
    if slotExists pf then                                                       -- R156
      settle { pf with payload := payWrite pf.payload (n - 4) b, bytesConsumed := n + 1 }
    else (pf, .overrun)                                                         -- R157

/-! ## DEC, the bytes of a chunk (the loop of R150) -/

/-- How the loop of `ProcessChunk` was left. -/
inductive ChunkEnd where
  | drained
  | desync
  | overrun
  | noValue (index : Nat)
  deriving DecidableEq, Repr

/-- The loop of R150 over a chunk: the PartialFrame, the frames emitted in order, and how it ended.
A desync drops the rest of the chunk unread (R151). -/
def runBytes : List Byte → PartialFrame → PartialFrame × List Frame × ChunkEnd
  | [], pf => (pf, [], .drained)
  | b :: bs, pf =>
    match decByte b pf with
    | (pf', .proceed) => runBytes bs pf'
    | (pf', .emit f) =>
      match runBytes bs pf' with
      | (pf'', fs, e) => (pf'', f :: fs, e)
    | (pf', .desync) => (pf', [], .desync)
    | (pf', .overrun) => (pf', [], .overrun)
    | (pf', .noValue i) => (pf', [], .noValue i)

/-! ## The exclusive access (R62) -/

/-- `acquire lock`; the caller has seen it free. -/
def acquire (l : Lock) (s : State) : State := s.setLock l

/-- `release lock`. -/
def release (s : State) : State := s.setLock .free

/-! ## Taking a fault, and what leaves it -/

/-- The entry of `ZeroLengthOverrun`, the one fault of the hardware (R157, R247, R253): `dec.fault`
is set, the PartialFrame is kept, nothing is saved anywhere. -/
def takeOverrun (s : State) : State := s.setFault true

/-- `Reset` (R280, R281): every piece of the hardware's state at its reset value. The transport's
`rxq` is not reset (R282), nor is anything else of the environment, nor the record of the run. -/
def resetDecoder (s : State) : State :=
  ((((s.setPf .empty).setFault false).setClosed false).setDrop false).setLock .free

/-! ## ProcessChunk and Dispatch -/

/-- The frames of a chunk are given to `Dispatch` in order (R150, R211, R60). -/
def notify (frames : List Frame) (s : State) : State := s.addEvents (frames.map dispatch)

/-- `ProcessChunk(chunk)` (R150), then `Dispatch` of its frames, as one atomic step (R58; log 17).
A chunk that finds the lock taken waits: it changes nothing (R62; log 8). -/
def deliver (chunk : List Byte) (s : State) : Host.Outcome State Fault Refusal :=
  if s.decClosed || s.decFault then .next (s.addResult (.error .refused))       -- R171
  else if s.lock ≠ .free then .next s
  else
    let s₁ := acquire .rx s
    match runBytes chunk s.pf with
    | (pf, frames, .drained) =>
      .next (notify frames ((release (s₁.setPf pf)).addResult (.chunk frames false)))
    | (pf, frames, .desync) =>
      .next (notify frames ((release (s₁.setPf pf)).addResult (.chunk frames true)))
    | (pf, frames, .overrun) =>
      .next (notify frames ((release (takeOverrun (s₁.setPf pf))).addResult (.overrun frames)))
    | (_, _, .noValue i) => .fault (.slotWithoutValue i)

/-- The delivery of one whole frame as one chunk: the inbound meaning of every frame type, since
"DEC treats every type alike" (R91) and `Dispatch` tells them apart. -/
def receive (code : Byte) (payload : List Byte) (s : State) : Host.Outcome State Fault Refusal :=
  if Config.maxPayload < payload.length then .refused (.noSuchFrame payload.length)
  else deliver (frameBytes code payload) s

/-! ## The byte-serial form (R166) -/

/-- After the last byte of a chunk the drop bit is cleared and the exclusive access is given back
(R166: it "is held from the first byte of a chunk to its `last` byte"; log 10). -/
def endTransfer (last : Bool) (s : State) : State :=
  if last then
    match s.lock with
    | .rx => (s.setDrop false).setLock .free
    | .free | .tx => s.setDrop false
  else s

/-- `ByteIn(b, last)` (R166). A byte that finds a send holding the lock waits. -/
def byteIn (b : Byte) (last : Bool) (s : State) : Host.Outcome State Fault Refusal :=
  if s.decClosed || s.decFault then .next (endTransfer last s)
  else if s.lock = .tx then .next s
  else
    let s₁ := acquire .rx s
    if s.decDrop then .next (endTransfer last s₁)
    else
      match decByte b s.pf with
      | (pf, .proceed) => .next (endTransfer last (s₁.setPf pf))
      | (pf, .emit f) =>
        .next (endTransfer last (notify [f] ((s₁.setPf pf).addResult (.chunk [f] false))))
      | (pf, .desync) =>
        .next (endTransfer last (((s₁.setPf pf).setDrop true).addResult (.chunk [] true)))
      | (pf, .overrun) =>
        .next (endTransfer last ((takeOverrun (s₁.setPf pf)).addResult (.overrun [])))
      | (_, .noValue i) => .fault (.slotWithoutValue i)

/-! ## The transport's queue (R33, R64, R259) -/

/-- `discard_pending_input()`: the PartialFrame is not touched (R64). -/
def discardPendingInput (s : State) : State := s.setRxq []

/-! ## Send (R132) -/

/-- `transport.write(bytes)` and its answer (R133, R258). -/
def transportWrite (bytes : List Byte) (s : State) : State :=
  s.addWritten { bytes := bytes, answer := s.writeAnswer }

/-- What `Send` returns after its write (R132, R244). -/
def sendResult : WriteAnswer → Result
  | .ok => .sent
  | .transportError => .error .transportError

/-- `Send(cmd, args)` (R132): encode first (D16), refuse after Close, then under the exclusive access
discard and write. A send that finds the lock taken waits (R62; log 8). -/
def send (cmd : Byte) (args : Option (List Byte)) (s : State) : Host.Outcome State Fault Refusal :=
  match encodeArgs cmd args with
  | .error k => .next (s.addResult (.error k))
  | .ok bytes =>
    if s.decClosed then .next (s.addResult (.error .refused))
    else if s.lock ≠ .free then .next s
    else
      let s₁ := transportWrite bytes (discardPendingInput (acquire .tx s))
      .next ((release s₁).addResult (sendResult s.writeAnswer))

/-! ## Close (R284) -/

/-- `Close`: the PartialFrame is discarded, `dec.fault` is left as it was. It waits for the
exclusive access (R284: "a chunk or a send in progress finishes first"). -/
def close (s : State) : Host.Outcome State Fault Refusal :=
  if s.lock ≠ .free then .next s
  else .next ((s.setPf .empty).setClosed true)

/-- `Reset` needs the exclusive access (R281). -/
def reset (s : State) : Host.Outcome State Fault Refusal :=
  if s.lock ≠ .free then .next s
  else .next (resetDecoder s)

/-! ## Calls of the pure functions -/

/-- The result of a call that answers bytes or an error. -/
def bytesResult : Except ErrorKind (List Byte) → Result
  | .ok bs => .bytes bs
  | .error k => .error k

/-- The result of `DecodeDateTime`. -/
def dateTimeResult : Except ErrorKind DateTimeValue → Result
  | .ok v => .dateTime v
  | .error k => .error k

/-- The result of `DecodeU32BE`. -/
def wordResult : Except ErrorKind Word → Result
  | .ok v => .word v
  | .error k => .error k

end Sys2Proof.Machine
end

