-- ==== Sys2Proof/Machine/Acknowledgements.lean ====
section
/-! DEFINITION. The meanings of the acknowledgements (`30_encoding.md` R91, R92, R107, R108): the two
frame types, the six Ack sub-formats and the Nack format. Inbound, DISP branches on `original`
(`43_response_dispatch.md` R213 to R220). Outbound, the generic `Encode` produces them, since
direction is not enforced (R110, R131). -/

namespace Sys2Proof.Machine

/-- `Ack` (R91): inbound, `DispatchAck` (R213). -/
def execAck (d : Dir) (p : List Byte) (s : State) : Host.Outcome State Fault Refusal :=
  match d with
  | .outbound => send 0x00#8 (some p) s
  | .inbound => receive 0x00#8 p s

/-- `Nack` (R92): inbound, `DispatchNack` (R220). -/
def execNack (d : Dir) (p : List Byte) (s : State) : Host.Outcome State Fault Refusal :=
  match d with
  | .outbound => send 0x01#8 (some p) s
  | .inbound => receive 0x01#8 p s

/-- `Ack.ReadConfiguration` (R214): event `ReadConfiguration(argument)`. -/
def execAckReadConfiguration (d : Dir) (a : List Byte) (s : State) : Host.Outcome State Fault Refusal :=
  match d with
  | .outbound => send 0x00#8 (some (0x02#8 :: a)) s
  | .inbound => receive 0x00#8 (0x02#8 :: a) s

/-- `Ack.WriteConfiguration` (R215): event `WriteConfiguration`. -/
def execAckWriteConfiguration (d : Dir) (a : List Byte) (s : State) : Host.Outcome State Fault Refusal :=
  match d with
  | .outbound => send 0x00#8 (some (0x03#8 :: a)) s
  | .inbound => receive 0x00#8 (0x03#8 :: a) s

/-- `Ack.ReadDateTime` (R216): event `ReadDateTime(v)`, or the length error. -/
def execAckReadDateTime (d : Dir) (a : List Byte) (s : State) : Host.Outcome State Fault Refusal :=
  match d with
  | .outbound => send 0x00#8 (some (0x04#8 :: a)) s
  | .inbound => receive 0x00#8 (0x04#8 :: a) s

/-- `Ack.WriteDateTime` (R217): event `WriteDateTime`. -/
def execAckWriteDateTime (d : Dir) (a : List Byte) (s : State) : Host.Outcome State Fault Refusal :=
  match d with
  | .outbound => send 0x00#8 (some (0x05#8 :: a)) s
  | .inbound => receive 0x00#8 (0x05#8 :: a) s

/-- `Ack.ReadBatteryStatus` (R218): event `BatteryStatus(n)`, or the length error. -/
def execAckReadBatteryStatus (d : Dir) (a : List Byte) (s : State) : Host.Outcome State Fault Refusal :=
  match d with
  | .outbound => send 0x00#8 (some (0x06#8 :: a)) s
  | .inbound => receive 0x00#8 (0x06#8 :: a) s

/-- `Ack.other` (R219): event `Ignored`. -/
def execAckOther (d : Dir) (o : Byte) (a : List Byte) (s : State) : Host.Outcome State Fault Refusal :=
  match d with
  | .outbound => send 0x00#8 (some (o :: a)) s
  | .inbound => receive 0x00#8 (o :: a) s

/-- `Nack.any` (R220): event `CommandFailed(CmdOf(original), error_code)`, or the length error. -/
def execNackAny (d : Dir) (o : Byte) (r : List Byte) (s : State) : Host.Outcome State Fault Refusal :=
  match d with
  | .outbound => send 0x01#8 (some (o :: r)) s
  | .inbound => receive 0x01#8 (o :: r) s

end Sys2Proof.Machine
end

