-- ==== Sys2Proof/Machine/Commands.lean ====
section
/-! DEFINITION. The meanings of the eleven frame types 2 to 12 (`30_encoding.md` R93 to R103).
Outbound, each is `Send` with its code (`40_frame_encoder.md` R122 to R132). Inbound, DEC frames it
like any other and DISP answers `Ignored` (`43_response_dispatch.md` R222). -/

namespace Sys2Proof.Machine

/-- `ReadConfiguration` (R93): `read_configuration()` sends it with no argument (R124). -/
def execReadConfiguration (d : Dir) (p : List Byte) (s : State) : Host.Outcome State Fault Refusal :=
  match d with
  | .outbound => send 0x02#8 (some p) s
  | .inbound => receive 0x02#8 p s

/-- `WriteConfiguration` (R94): `write_configuration(blob)` sends it with the opaque blob (R125, R195). -/
def execWriteConfiguration (d : Dir) (p : List Byte) (s : State) : Host.Outcome State Fault Refusal :=
  match d with
  | .outbound => send 0x03#8 (some p) s
  | .inbound => receive 0x03#8 p s

/-- `ReadDateTime` (R95): `get_date_time()` sends it with no argument (R122). -/
def execReadDateTime (d : Dir) (p : List Byte) (s : State) : Host.Outcome State Fault Refusal :=
  match d with
  | .outbound => send 0x04#8 (some p) s
  | .inbound => receive 0x04#8 p s

/-- `WriteDateTime` (R96): `set_date_time(dt, day_of_week)` sends it with the 8 bytes of R191 (R123). -/
def execWriteDateTime (d : Dir) (p : List Byte) (s : State) : Host.Outcome State Fault Refusal :=
  match d with
  | .outbound => send 0x05#8 (some p) s
  | .inbound => receive 0x05#8 p s

/-- `ReadBatteryStatus` (R97): `read_battery_status()` sends it with no argument (R126). -/
def execReadBatteryStatus (d : Dir) (p : List Byte) (s : State) : Host.Outcome State Fault Refusal :=
  match d with
  | .outbound => send 0x06#8 (some p) s
  | .inbound => receive 0x06#8 p s

/-- `ShowYourself` (R98): `show_yourself()` sends it with no argument (R129). -/
def execShowYourself (d : Dir) (p : List Byte) (s : State) : Host.Outcome State Fault Refusal :=
  match d with
  | .outbound => send 0x07#8 (some p) s
  | .inbound => receive 0x07#8 p s

/-- `StopSendData` (R99): `stop_send_data()` sends it with no argument (R127). -/
def execStopSendData (d : Dir) (p : List Byte) (s : State) : Host.Outcome State Fault Refusal :=
  match d with
  | .outbound => send 0x08#8 (some p) s
  | .inbound => receive 0x08#8 p s

/-- `StartSendData` (R100): `start_send_data()` sends it with no argument (R128). -/
def execStartSendData (d : Dir) (p : List Byte) (s : State) : Host.Outcome State Fault Refusal :=
  match d with
  | .outbound => send 0x09#8 (some p) s
  | .inbound => receive 0x09#8 p s

/-- `StopSendLog` (R101): no call sends it, the generic `Encode` does (R131). -/
def execStopSendLog (d : Dir) (p : List Byte) (s : State) : Host.Outcome State Fault Refusal :=
  match d with
  | .outbound => send 0x0A#8 (some p) s
  | .inbound => receive 0x0A#8 p s

/-- `StartSendLog` (R102): no call sends it, the generic `Encode` does (R131). -/
def execStartSendLog (d : Dir) (p : List Byte) (s : State) : Host.Outcome State Fault Refusal :=
  match d with
  | .outbound => send 0x0B#8 (some p) s
  | .inbound => receive 0x0B#8 p s

/-- `GetData` (R103): `get_sample_data()` sends it with no argument (R130, D18). -/
def execGetData (d : Dir) (p : List Byte) (s : State) : Host.Outcome State Fault Refusal :=
  match d with
  | .outbound => send 0x0C#8 (some p) s
  | .inbound => receive 0x0C#8 p s

end Sys2Proof.Machine
end

