-- ==== Sys2Proof/Machine/Streams.lean ====
section
/-! DEFINITION. The meanings of the two data streams of the device and of a type byte with no
command (`30_encoding.md` R104 to R106). Any code can be sent by the generic `Encode` (R131). -/

namespace Sys2Proof.Machine

/-- `SendData` (R104): inbound, the whole payload goes to `received_data` (R212). -/
def execSendData (d : Dir) (p : List Byte) (s : State) : Host.Outcome State Fault Refusal :=
  match d with
  | .outbound => send 0x32#8 (some p) s
  | .inbound => receive 0x32#8 p s

/-- `SendLog` (R105): inbound, the whole payload goes to `received_log` (R221). -/
def execSendLog (d : Dir) (p : List Byte) (s : State) : Host.Outcome State Fault Refusal :=
  match d with
  | .outbound => send 0x33#8 (some p) s
  | .inbound => receive 0x33#8 p s

/-- `Unknown` (R106): inbound, framed with its raw type byte (R22) and `Ignored` (R223). Outbound, the raw
`Encode` serialises any byte (R120 (f)); the typed `EncodeCmd` refuses the sentinel (R121). -/
def execUnknown (d : Dir) (t : Byte) (p : List Byte) (s : State) : Host.Outcome State Fault Refusal :=
  match d with
  | .outbound => send t (some p) s
  | .inbound => receive t p s

end Sys2Proof.Machine
end

