-- ==== Sys2Proof/Machine/Dispatch.lean ====
section
/-! DEFINITION. The meaning of every instruction, one arm per row of `spec/opcode_table.json`. -/

namespace Sys2Proof.Machine

def exec (i : Instr) (s : State) : Host.Outcome State Fault Refusal :=
  match i with
  | .ack d p => Sys2Proof.Machine.execAck d p s
  | .nack d p => Sys2Proof.Machine.execNack d p s
  | .readConfiguration d p => Sys2Proof.Machine.execReadConfiguration d p s
  | .writeConfiguration d p => Sys2Proof.Machine.execWriteConfiguration d p s
  | .readDateTime d p => Sys2Proof.Machine.execReadDateTime d p s
  | .writeDateTime d p => Sys2Proof.Machine.execWriteDateTime d p s
  | .readBatteryStatus d p => Sys2Proof.Machine.execReadBatteryStatus d p s
  | .showYourself d p => Sys2Proof.Machine.execShowYourself d p s
  | .stopSendData d p => Sys2Proof.Machine.execStopSendData d p s
  | .startSendData d p => Sys2Proof.Machine.execStartSendData d p s
  | .stopSendLog d p => Sys2Proof.Machine.execStopSendLog d p s
  | .startSendLog d p => Sys2Proof.Machine.execStartSendLog d p s
  | .getData d p => Sys2Proof.Machine.execGetData d p s
  | .sendData d p => Sys2Proof.Machine.execSendData d p s
  | .sendLog d p => Sys2Proof.Machine.execSendLog d p s
  | .unknown d t p => Sys2Proof.Machine.execUnknown d t p s
  | .ackReadConfiguration d a => Sys2Proof.Machine.execAckReadConfiguration d a s
  | .ackWriteConfiguration d a => Sys2Proof.Machine.execAckWriteConfiguration d a s
  | .ackReadDateTime d a => Sys2Proof.Machine.execAckReadDateTime d a s
  | .ackWriteDateTime d a => Sys2Proof.Machine.execAckWriteDateTime d a s
  | .ackReadBatteryStatus d a => Sys2Proof.Machine.execAckReadBatteryStatus d a s
  | .ackOther d o a => Sys2Proof.Machine.execAckOther d o a s
  | .nackAny d o r => Sys2Proof.Machine.execNackAny d o r s

end Sys2Proof.Machine
end

