-- ==== Sys2Proof/Machine/Perform.lean ====
section
/-! DEFINITION. What each action of `todo` does, and which action is next. A frame sent and a chunk
that is exactly one frame are the instructions of the engine and go through `exec`; every other
chunk (a fragment, several frames, noise) goes to `ProcessChunk` as it is. -/

namespace Sys2Proof.Machine

/-- The `SEND` each of the nine calls expands to (R136, by name: D18). -/
def expandCall : HostCall → Byte × Option (List Byte)
  | .getDateTime => (0x04#8, none)
  | .setDateTime dt dow => (0x05#8, some (encodeDateTimeForWrite dt dow))
  | .readConfiguration => (0x02#8, none)
  | .writeConfiguration blob => (0x03#8, some blob)
  | .readBatteryStatus => (0x06#8, none)
  | .stopSendData => (0x08#8, none)
  | .startSendData => (0x09#8, none)
  | .showYourself => (0x07#8, none)
  | .getSampleData => (0x0C#8, none)

/-- The outbound instruction of a send (R132, R110). An absent argument is an empty one (R120 (a)). -/
def sendInstr (cmd : Byte) (args : Option (List Byte)) : Instr :=
  refine (frameInstr .outbound cmd (argBytes args))

/-- A chunk delivered: its instruction, if it is exactly one frame, else `ProcessChunk` (R150). -/
def runChunk (chunk : List Byte) (s : State) : Host.Outcome State Fault Refusal :=
  match decodeExact .inbound chunk with
  | some i => exec i s
  | none => deliver chunk s

/-! ## Waiting for the exclusive access (R62) -/

/-- A chunk can be taken: the lock is free, or it will be refused without the lock (R171). -/
def chunkReady (s : State) : Bool := s.decClosed || s.decFault || s.lock == .free

/-- A byte of a chunk can be taken: no send holds the lock, or the transfer is ignored (R166). -/
def byteReady (s : State) : Bool := s.decClosed || s.decFault || s.lock != .tx

/-- A send can go on: the lock is free, or it ends before it needs the lock (R132, R252 (c)). -/
def sendReady (args : Option (List Byte)) (s : State) : Bool :=
  s.lock == .free || s.decClosed || Config.maxPayload < (argBytes args).length

/-- The action has a step now (R62: otherwise "it waits; it is not an error"). -/
def ready (s : State) : Action → Bool
  | .rx _ | .onBytes _ => chunkReady s
  | .byteIn _ _ => byteReady s
  | .send _ args => sendReady args s
  | .call c => sendReady (expandCall c).2 s
  | .close | .reset => s.lock == .free
  | .arrive _ | .encode _ _ | .encodeCmd _ _ | .dispatch _ | .encodeDateTimeForWrite _ _
  | .decodeDateTime _ | .decodeU32BE _ | .timeout | .writeAnswers _ => true

/-- The first action that has a step, and the others in their order (log 8). -/
def takeReady (s : State) : List Action → Option (Action × List Action)
  | [] => none
  | a :: rest =>
    if ready s a then some (a, rest)
    else
      match takeReady s rest with
      | some (b, rest') => some (b, a :: rest')
      | none => none

/-! ## Actions -/

/-- `on_bytes`: the transport removes a non-empty prefix of `rxq` and delivers it (R260). With
nothing to deliver there is no notification (log 19). -/
def onBytes (n : Nat) (s : State) : Host.Outcome State Fault Refusal :=
  match s.rxq.take n with
  | [] => .next s
  | b :: bs =>
    if chunkReady s then runChunk (b :: bs) (s.setRxq (s.rxq.drop n)) else .next s

/-- One action. -/
def perform (a : Action) (s : State) : Host.Outcome State Fault Refusal :=
  match a with
  | .rx chunk => runChunk chunk s
  | .byteIn b last => byteIn b last s
  | .arrive bs => .next (s.setRxq (s.rxq ++ bs))
  | .onBytes n => onBytes n s
  | .send cmd args => exec (sendInstr cmd args) s
  | .call c => exec (sendInstr (expandCall c).1 (expandCall c).2) s
  | .encode cmd args => .next (s.addResult (bytesResult (encodeArgs cmd args)))
  | .encodeCmd c args => .next (s.addResult (bytesResult (encodeCmd c args)))
  | .dispatch f => .next (s.addResult (.event (dispatch f)))
  | .encodeDateTimeForWrite dt dow => .next (s.addResult (.bytes (encodeDateTimeForWrite dt dow)))
  | .decodeDateTime bs => .next (s.addResult (dateTimeResult (decodeDateTime bs)))
  | .decodeU32BE bs => .next (s.addResult (wordResult (decodeU32BE bs)))
  | .reset => reset s
  | .close => close s
  | .timeout => .next (s.addResult (.error .transportTimeout))
  | .writeAnswers w => .next (s.setWriteAnswer w)

/-! ## Where an instruction is fetched -/

/-- The action that runs the instruction whose bytes these are: a command to the device is sent, a
frame from the device is delivered (R91 to R106). -/
def fetchAction (bs : List Byte) : Action :=
  match tableDir bs, splitFrame bs with
  | .outbound, .ok (t, p, []) => .send t (some p)
  | _, _ => .rx bs

end Sys2Proof.Machine
end

