-- ==== Sys2Proof/Machine/Step.lean ====
section
/-! DEFINITION. One step of the engine: the first action of `todo` that has a step is taken and
performed (`20_memory.md` R60, R62). With none, the machine idles (`60_exceptions.md` R265: DEC
"simply has no step to take"; log 9). -/

namespace Sys2Proof.Machine

/-- One step. -/
def step (s : State) : Host.Outcome State Fault Refusal :=
  match takeReady s s.todo with
  | some (a, rest) => perform a (s.setTodo rest)
  | none => .next s

/-- The state in which the next step runs the instruction of an opcode-table word: the lock is free
and the action that carries the word's frame stands first in `todo`. It stands for the load of a
program from outside (log 3). -/
def State.withFetchWord (s : State) (nbits w : Nat) : State :=
  (s.setLock .free).setTodo (fetchAction (tableBytes nbits w) :: s.todo)

end Sys2Proof.Machine
end

