-- ==== Sys2Proof/Safety.lean ====
section
/-! DEFINITION. What statements speak of: the invariant of `10_state.md` R38, the states in which a
frame or a command goes through, and what a run has produced. -/

namespace Sys2Proof.Machine

/-- R38 (a) to (d) for the PartialFrame, and R24: exactly the slots `0 .. bytes_consumed - 5` hold a
value. -/
structure PfInv (pf : PartialFrame) : Prop where
  counter : pf.bytesConsumed ≤ 65538
  typeClear : pf.bytesConsumed ≤ 1 → pf.ftype = 0x00#8
  lengthClear : pf.bytesConsumed ≤ 2 → pf.length = 0x0000#16
  lengthLow : pf.bytesConsumed = 3 → loByte pf.length = 0x00#8
  inBounds : 4 ≤ pf.bytesConsumed →
    (pf.length = 0x0000#16 ∧ pf.bytesConsumed = 4) ∨ pf.bytesConsumed - 4 < pf.length.toNat
  slots : pf.payload.map Prod.fst = List.range (pf.bytesConsumed - 4)

/-- The invariant of the whole machine. R38 (e) and (f) hold whenever no byte-serial chunk is in
progress: then `lock` is `rx` (R166). A closed machine has an empty PartialFrame (R284); a faulted
one is wedged, unless it was closed since (R157, R284). -/
structure StateInv (s : State) : Prop where
  pf : PfInv s.pf
  dropClear : s.lock = .free → s.decDrop = false
  noSend : s.lock ≠ .tx
  dropEmpty : s.decDrop = true → s.pf = .empty
  closedEmpty : s.decClosed = true → s.pf = .empty ∧ s.lock = .free
  faultWedged : s.decFault = true → s.decClosed = true ∨ isWedged s.pf = true

/-- DEC can take a chunk (R150): not closed, not faulted, the lock free. -/
structure Open (s : State) : Prop where
  notClosed : s.decClosed = false
  noFault : s.decFault = false
  lockFree : s.lock = .free

/-- DEC is in state 0, "ready to start a fresh frame" (R169, R280). -/
structure Ready (s : State) : Prop extends Open s where
  atStart : s.pf = .empty

/-- A send reaches its write (R132). -/
structure CanSend (s : State) : Prop where
  notClosed : s.decClosed = false
  lockFree : s.lock = .free

/-- `n` steps, stopping at the first fault or refusal (R303: a run is a finite trace of steps). -/
def runSteps : Nat → State → Host.Outcome State Fault Refusal
  | 0, s => .next s
  | n + 1, s =>
    match step s with
    | .next t => runSteps n t
    | .fault r => .fault r
    | .refused r => .refused r

/-- The frames a result reports (R150). -/
def Result.frames : Result → List Frame
  | .chunk fs _ => fs
  | .overrun fs => fs
  | .sent | .bytes _ | .dateTime _ | .word _ | .event _ | .error _ => []

/-- All frames DEC has emitted, in order (R60). -/
def State.emitted (s : State) : List Frame := s.results.flatMap Result.frames

/-- A frame as DEC emits them (R163): `length >= 1` and `len(payload) = length`. -/
def Frame.whole (f : Frame) : Bool := 0 < f.length.toNat && f.payload.length == f.length.toNat

/-- Every emitted frame is whole (R163, the source's property of no torn reads: R58). -/
def FramesWhole (s : State) : Prop := ∀ f ∈ s.emitted, f.whole = true

/-- What a frame's delivery to a ready machine leaves (R159, R150, R211): the frame reported, its
event notified, DEC empty, all else as it was. -/
def State.afterFrame (s : State) (code : Byte) (p : List Byte) (e : Event) : State :=
  (s.addResult (.chunk [{ ftype := code, length := BitVec.ofNat 16 p.length, payload := p }] false)).addEvents [e]

/-- What a zero-length frame's delivery to a ready machine leaves (R155, R160): DEC wedged. -/
def State.afterWedge (s : State) (code : Byte) : State :=
  (s.setPf { bytesConsumed := 4, ftype := code, length := 0x0000#16, payload := [] }).addResult
    (.chunk [] false)

/-- What a send that reaches its write leaves (R132, R133): `rxq` discarded, the frame handed over,
the answer returned, all else as it was. -/
def State.afterSend (s : State) (code : Byte) (p : List Byte) : State :=
  ((s.setRxq []).addWritten { bytes := frameBytes code p, answer := s.writeAnswer }).addResult
    (sendResult s.writeAnswer)

end Sys2Proof.Machine
end

