-- ==== Sys2Proof/Certificates/Slice0/Obligations.lean ====
section
/-! DEFINITION. The statements for the provers. Each docstring names the rule of spec/ it formalises,
or, for a derived one, what it rests on. -/

open Sys2Proof Sys2Proof.Machine

/-! ## Encoding -/

/-- A few words of the table, written out from R83, R86 and R107, decode to what they stand for. The
numbering of the table's words over the stream bytes is the model's reading (log 22), the two levels
of rows its choice (log 16). -/
def Obligations.TableWordsDecode : Prop :=
  decodeTableWord 32 0x2A040000 = some (.readDateTime .outbound []) ∧
  decodeTableWord 32 0x2A0C0000 = some (.getData .outbound []) ∧
  decodeTableWord 32 0x2A320002 = some (.sendData .inbound [0x00#8, 0x00#8]) ∧
  decodeTableWord 32 0x2A0D0001 = some (.unknown .inbound 0x0D#8 [0x00#8]) ∧
  decodeTableWord 40 0x2A00000103 = some (.ackWriteConfiguration .inbound []) ∧
  decodeTableWord 40 0x2A00000107 = some (.ackOther .inbound 0x07#8 []) ∧
  decodeTableWord 40 0x2A01000203 = some (.nackAny .inbound 0x03#8 [0x00#8]) ∧
  decodeTableWord 32 0x2B040000 = none

/-- R80, R81, R83, R86: the words of a well-formed instruction of a `FRAME` row decode to it, and
to nothing more than it. -/
def Obligations.FrameRowsRoundTrip : Prop :=
  ∀ (i : Instr) (rest : List Byte), i.wellFormed = true → i.isSubFormat = false →
    decodeFrame i.dir (encode i ++ rest) = .ok (i, rest)

/-- R86, R107, R108: the words of a well-formed instruction of an `ACK_SUB` or `NACK` row decode to
it, and to nothing more than it. -/
def Obligations.SubFormatRowsRoundTrip : Prop :=
  ∀ (i : Instr) (rest : List Byte), i.wellFormed = true → i.isSubFormat = true →
    decode i.dir (encode i ++ rest) = .ok (i, rest)

/-- R82, R86: what decodes is well-formed, has the direction it was read in, and its words are the
bytes that were read. -/
def Obligations.DecodedInstructionReencodes : Prop :=
  ∀ (d : Dir) (bs rest : List Byte) (i : Instr), decode d bs = .ok (i, rest) →
    i.wellFormed = true ∧ i.dir = d ∧ encode i ++ rest = bs

/-- R109 (a): a first byte other than 0x2A is not a frame. -/
def Obligations.NonMagicIsNoFrame : Prop :=
  ∀ (d : Dir) (b : Byte) (bs : List Byte), b ≠ 0x2A#8 →
    decode d (b :: bs) = .error (.notMagic b) ∧ decodeExact d (b :: bs) = none

/-- R84, R85 (with the codes of R83): the codes of the fifteen members and the inverse. -/
def Obligations.TypeCodesAreInverse : Prop :=
  [CommandType.ack, .nack, .readConfiguration, .writeConfiguration, .readDateTime, .writeDateTime,
    .readBatteryStatus, .showYourself, .stopSendData, .startSendData, .stopSendLog, .startSendLog,
    .getData, .sendData, .sendLog].map codeOf =
    [some 0#8, some 1#8, some 2#8, some 3#8, some 4#8, some 5#8, some 6#8, some 7#8, some 8#8,
      some 9#8, some 10#8, some 11#8, some 12#8, some 50#8, some 51#8] ∧
  (∀ c : CommandType, c ≠ .unknown → (codeOf c).map cmdOf = some c) ∧
  codeOf .unknown = none ∧
  (∀ b : Byte, codeOf (cmdOf b) = some b ↔ (b.toNat ≤ 12 ∨ b.toNat = 50 ∨ b.toNat = 51)) ∧
  (∀ b : Byte, cmdOf b = .unknown ↔ ¬(b.toNat ≤ 12 ∨ b.toNat = 50 ∨ b.toNat = 51))

/-! ## ENC -/

/-- R120: `Encode` builds the header and appends the argument, for every type byte. -/
def Obligations.EncodeBuildsTheFrame : Prop :=
  ∀ (cmd : Byte) (a : List Byte),
    encodeArgs cmd none = encodeArgs cmd (some []) ∧
    (a.length ≤ 65535 → ∃ hi lo : Byte,
      hi.toNat = a.length / 256 ∧ lo.toNat = a.length % 256 ∧
      encodeArgs cmd (some a) = .ok ([0x2A#8, cmd, hi, lo] ++ a)) ∧
    (65535 < a.length → encodeArgs cmd (some a) = .error .argumentTooLarge)

/-- R134 (a), (b): the size of a frame, and that `Encode` is injective. -/
def Obligations.EncodeIsInjective : Prop :=
  ∀ (c c' : Byte) (a a' : Option (List Byte)) (bs : List Byte),
    encodeArgs c a = .ok bs → bs.length = 4 + (argBytes a).length ∧
      (encodeArgs c' a' = .ok bs → c = c' ∧ argBytes a = argBytes a')

/-- R121: the typed encoder is `Encode` of the code, and refuses the sentinel. -/
def Obligations.TypedEncoderRefusesUnknown : Prop :=
  ∀ args : Option (List Byte),
    encodeCmd .unknown args = .error .unencodableCommand ∧
    ∀ (c : CommandType) (code : Byte), codeOf c = some code →
      encodeCmd c args = encodeArgs code args

/-! ## CODEC -/

/-- R199 (with R191, R192): a date-time survives the write form, whose byte 7 is the day of week. -/
def Obligations.DateTimeRoundTrip : Prop :=
  ∀ (dt : DateTimeValue) (dow : Byte),
    decodeDateTime ((encodeDateTimeForWrite dt dow).take 7) = .ok dt ∧
    (encodeDateTimeForWrite dt dow)[7]? = some dow ∧
    (encodeDateTimeForWrite dt dow).length = 8

/-- R192: exactly 7 bytes, the year big-endian; any other length is `PayloadLengthMismatch`. -/
def Obligations.DateTimeLayout : Prop :=
  (∀ y1 y0 mo d h mi se : Byte, ∃ y : Half, y.toNat = 256 * y1.toNat + y0.toNat ∧
    decodeDateTime [y1, y0, mo, d, h, mi, se] =
      .ok { year := y, month := mo, day := d, hour := h, minute := mi, second := se }) ∧
  ∀ a : List Byte, a.length ≠ 7 → decodeDateTime a = .error .payloadLengthMismatch

/-- R193: exactly 4 bytes, big-endian and unsigned; any other length is `PayloadLengthMismatch`. -/
def Obligations.BatteryValueLayout : Prop :=
  (∀ b0 b1 b2 b3 : Byte, ∃ n : Word,
    n.toNat = 16777216 * b0.toNat + 65536 * b1.toNat + 256 * b2.toNat + b3.toNat ∧
    decodeU32BE [b0, b1, b2, b3] = .ok n) ∧
  ∀ a : List Byte, a.length ≠ 4 → decodeU32BE a = .error .payloadLengthMismatch

/-! ## Frames that arrive: what each instruction does inbound

An inbound instruction is its frame's bytes delivered as one chunk, then `Dispatch` (the model's
form of an inbound frame: logs 2, 17); `events` and `results` are its record of the outputs (log 11).
`Ready s`: DEC is in state 0, not closed, not faulted, the lock free. `afterFrame` reports the frame
and its event; every other field of the state is as it was. -/

/-- R212, R104: `SendData`. -/
def Obligations.SendDataReachesTheSink : Prop :=
  ∀ (s : State) (p : List Byte), Ready s → p ≠ [] → p.length ≤ 65535 →
    exec (.sendData .inbound p) s = .next (s.afterFrame 0x32#8 p (.receivedData p))

/-- R221, R105: `SendLog`. -/
def Obligations.SendLogReachesTheSink : Prop :=
  ∀ (s : State) (p : List Byte), Ready s → p ≠ [] → p.length ≤ 65535 →
    exec (.sendLog .inbound p) s = .next (s.afterFrame 0x33#8 p (.receivedLog p))

/-- R214: Ack of `ReadConfiguration`: the argument, which may be empty, unchanged. -/
def Obligations.AckReadConfigurationCarriesTheBlob : Prop :=
  ∀ (s : State) (a : List Byte), Ready s → a.length ≤ 65534 →
    exec (.ackReadConfiguration .inbound a) s =
      .next (s.afterFrame 0x00#8 (0x02#8 :: a) (.readConfiguration a))

/-- R215, R217: Acks of the two writes: no data, the argument ignored. -/
def Obligations.AcksOfWritesCarryNothing : Prop :=
  ∀ (s : State) (a : List Byte), Ready s → a.length ≤ 65534 →
    exec (.ackWriteConfiguration .inbound a) s =
      .next (s.afterFrame 0x00#8 (0x03#8 :: a) .writeConfiguration) ∧
    exec (.ackWriteDateTime .inbound a) s =
      .next (s.afterFrame 0x00#8 (0x05#8 :: a) .writeDateTime)

/-- R216: Ack of `ReadDateTime`: seven argument bytes are the value, what follows them is ignored,
fewer are `PayloadLengthMismatch`. -/
def Obligations.AckReadDateTimeParsesSevenBytes : Prop :=
  ∀ (s : State) (a : List Byte), Ready s → a.length ≤ 65534 →
    (a.length < 7 → exec (.ackReadDateTime .inbound a) s =
      .next (s.afterFrame 0x00#8 (0x04#8 :: a) (.error .payloadLengthMismatch))) ∧
    ∀ (y1 y0 mo d h mi se : Byte) (more : List Byte) (y : Half),
      a = y1 :: y0 :: mo :: d :: h :: mi :: se :: more → y.toNat = 256 * y1.toNat + y0.toNat →
      exec (.ackReadDateTime .inbound a) s =
        .next (s.afterFrame 0x00#8 (0x04#8 :: a) (.readDateTime
          { year := y, month := mo, day := d, hour := h, minute := mi, second := se }))

/-- R218: Ack of `ReadBatteryStatus`: four argument bytes are the value, what follows them is
ignored, fewer are `PayloadLengthMismatch`. -/
def Obligations.AckReadBatteryParsesFourBytes : Prop :=
  ∀ (s : State) (a : List Byte), Ready s → a.length ≤ 65534 →
    (a.length < 4 → exec (.ackReadBatteryStatus .inbound a) s =
      .next (s.afterFrame 0x00#8 (0x06#8 :: a) (.error .payloadLengthMismatch))) ∧
    ∀ (b0 b1 b2 b3 : Byte) (more : List Byte) (n : Word), a = b0 :: b1 :: b2 :: b3 :: more →
      n.toNat = 16777216 * b0.toNat + 65536 * b1.toNat + 256 * b2.toNat + b3.toNat →
      exec (.ackReadBatteryStatus .inbound a) s =
        .next (s.afterFrame 0x00#8 (0x06#8 :: a) (.batteryStatus n))

/-- R219: Ack of anything else is ignored. -/
def Obligations.OtherAcksAreIgnored : Prop :=
  ∀ (s : State) (o : Byte) (a : List Byte), Ready s → a.length ≤ 65534 →
    ¬(2 ≤ o.toNat ∧ o.toNat ≤ 6) →
    exec (.ackOther .inbound o a) s = .next (s.afterFrame 0x00#8 (o :: a) .ignored)

/-- R220: a Nack gives `CommandFailed`, bytes after the error code ignored; without an error code it
is `PayloadLengthMismatch`. -/
def Obligations.NackReportsCommandFailed : Prop :=
  ∀ (s : State) (o : Byte), Ready s →
    exec (.nackAny .inbound o []) s =
      .next (s.afterFrame 0x01#8 [o] (.error .payloadLengthMismatch)) ∧
    ∀ (e : Byte) (more : List Byte), more.length ≤ 65533 →
      exec (.nackAny .inbound o (e :: more)) s =
        .next (s.afterFrame 0x01#8 (o :: e :: more) (.commandFailed (cmdOf o) e))

/-- R213, R211: the frame types `Ack` and `Nack` branch on `original`: each is the sub-format its
first payload byte selects, in both directions and in every state. -/
def Obligations.AckAndNackBranchOnOriginal : Prop :=
  ∀ (s : State) (d : Dir) (a : List Byte),
    exec (.ack d (0x02#8 :: a)) s = exec (.ackReadConfiguration d a) s ∧
    exec (.ack d (0x03#8 :: a)) s = exec (.ackWriteConfiguration d a) s ∧
    exec (.ack d (0x04#8 :: a)) s = exec (.ackReadDateTime d a) s ∧
    exec (.ack d (0x05#8 :: a)) s = exec (.ackWriteDateTime d a) s ∧
    exec (.ack d (0x06#8 :: a)) s = exec (.ackReadBatteryStatus d a) s ∧
    ∀ o : Byte, exec (.nack d (o :: a)) s = exec (.nackAny d o a) s ∧
      (¬(2 ≤ o.toNat ∧ o.toNat ≤ 6) → exec (.ack d (o :: a)) s = exec (.ackOther d o a) s)

/-- R91, R92, R211: an Ack or a Nack frame with a payload is emitted and gives the one event its
branch gives. -/
def Obligations.AckAndNackFramesGiveOneEvent : Prop :=
  ∀ (s : State) (p : List Byte), Ready s → p ≠ [] → p.length ≤ 65535 →
    exec (.ack .inbound p) s = .next (s.afterFrame 0x00#8 p (dispatchAck p)) ∧
    exec (.nack .inbound p) s = .next (s.afterFrame 0x01#8 p (dispatchNack p))

/-- R222: the eleven named types with no branch are framed and ignored when they arrive. -/
def Obligations.TypesWithNoBranchAreIgnored : Prop :=
  ∀ (s : State) (p : List Byte), Ready s → p ≠ [] → p.length ≤ 65535 →
    exec (.readConfiguration .inbound p) s = .next (s.afterFrame 0x02#8 p .ignored) ∧
    exec (.writeConfiguration .inbound p) s = .next (s.afterFrame 0x03#8 p .ignored) ∧
    exec (.readDateTime .inbound p) s = .next (s.afterFrame 0x04#8 p .ignored) ∧
    exec (.writeDateTime .inbound p) s = .next (s.afterFrame 0x05#8 p .ignored) ∧
    exec (.readBatteryStatus .inbound p) s = .next (s.afterFrame 0x06#8 p .ignored) ∧
    exec (.showYourself .inbound p) s = .next (s.afterFrame 0x07#8 p .ignored) ∧
    exec (.stopSendData .inbound p) s = .next (s.afterFrame 0x08#8 p .ignored) ∧
    exec (.startSendData .inbound p) s = .next (s.afterFrame 0x09#8 p .ignored) ∧
    exec (.stopSendLog .inbound p) s = .next (s.afterFrame 0x0A#8 p .ignored) ∧
    exec (.startSendLog .inbound p) s = .next (s.afterFrame 0x0B#8 p .ignored) ∧
    exec (.getData .inbound p) s = .next (s.afterFrame 0x0C#8 p .ignored)

/-- R106, R223: a type byte with no command is framed with its raw byte and ignored. -/
def Obligations.UnknownTypesAreIgnored : Prop :=
  ∀ (s : State) (t : Byte) (p : List Byte), Ready s → p ≠ [] → p.length ≤ 65535 →
    ¬(t.toNat ≤ 12 ∨ t.toNat = 50 ∨ t.toNat = 51) →
    exec (.unknown .inbound t p) s = .next (s.afterFrame t p .ignored)

/-- R160, R158: a zero-length frame of any type is never emitted and leaves DEC wedged. -/
def Obligations.ZeroLengthFrameWedges : Prop :=
  ∀ (s : State) (i : Instr), Ready s → i.dir = .inbound → i.payload = [] →
    exec i s = .next (s.afterWedge i.ftype)

/-- R27, R34, R150: what a frame that arrives leaves as it was, in every state: all but the
PartialFrame, `dec.fault` and the outputs `events` and `results`. `dec.fault` is never cleared.
Delivered to a ready machine, it also leaves `dec.fault` and every slot of the payload buffer. -/
def Obligations.InboundFrameRule : Prop :=
  ∀ (i : Instr) (s t : State), i.dir = .inbound → exec i s = .next t →
    t.decClosed = s.decClosed ∧ t.decDrop = s.decDrop ∧ t.lock = s.lock ∧ t.rxq = s.rxq ∧
    t.writeAnswer = s.writeAnswer ∧ t.todo = s.todo ∧ t.written = s.written ∧
    s.events <+: t.events ∧ s.results <+: t.results ∧
    (s.decFault = true → t.decFault = true) ∧
    (Ready s → t.decFault = s.decFault ∧
      ∀ k, payRead t.pf.payload k = payRead s.pf.payload k)

/-- R156, R169, R170: a frame that arrives while an earlier one still waits for more payload than the
whole frame has: every byte of it, magic and header included, is stored as payload in the slots from
`bytes_consumed - 4` on, every other slot keeps what it holds, nothing is emitted and nothing else
changes. -/
def Obligations.MidFrameBytesFillTheirSlots : Prop :=
  ∀ (s : State) (i : Instr), Open s → i.dir = .inbound → i.wellFormed = true →
    4 ≤ s.pf.bytesConsumed → s.pf.bytesConsumed + (encode i).length < 4 + s.pf.length.toNat →
    ∃ m : Memory,
      exec i s = .next { s with
        pf := { s.pf with
          payload := m, bytesConsumed := s.pf.bytesConsumed + (encode i).length }
        results := s.results ++ [.chunk [] false] } ∧
      (∀ k, k < (encode i).length → payRead m (s.pf.bytesConsumed - 4 + k) = (encode i)[k]?) ∧
      ∀ k, k < s.pf.bytesConsumed - 4 ∨ s.pf.bytesConsumed - 4 + (encode i).length ≤ k →
        payRead m k = payRead s.pf.payload k

/-! ## Frames that are sent: what each instruction does outbound -/

/-- R132, R133 (the record `written`, what `write` answers: logs 5, 11, 12): every instruction outbound
is a send: `rxq` discarded, its frame handed over as one
sequence, the transport's answer returned; every other field of the state is as it was. -/
def Obligations.SendWritesTheFrame : Prop :=
  ∀ (i : Instr) (s : State), i.dir = .outbound → i.wellFormed = true → CanSend s →
    exec i s = .next
      { s with
        rxq := []
        written := s.written ++ [{ bytes := encode i, answer := s.writeAnswer }]
        results := s.results ++ [match s.writeAnswer with
          | .ok => .sent
          | .transportError => .error .transportError] }

/-- R252 (c), R132, R241: within a send `ArgumentTooLarge` comes first, whatever the state, then
`Refused` after Close, whatever the lock; neither touches anything but the result. -/
def Obligations.SendErrorsComeInOrder : Prop :=
  ∀ (i : Instr) (s : State), i.dir = .outbound →
    (65535 < i.payload.length → exec i s = .next (s.addResult (.error .argumentTooLarge))) ∧
    (i.payload.length ≤ 65535 → s.decClosed = true →
      exec i s = .next (s.addResult (.error .refused)))

/-- R27, R26, R132: what a send leaves as it was, in every state: the PartialFrame with every slot
of its buffer, the three flags, the lock, the environment's plan and the events. -/
def Obligations.OutboundFrameRule : Prop :=
  ∀ (i : Instr) (s t : State), i.dir = .outbound → exec i s = .next t →
    t.pf = s.pf ∧ (∀ k, payRead t.pf.payload k = payRead s.pf.payload k) ∧
    t.decFault = s.decFault ∧ t.decClosed = s.decClosed ∧ t.decDrop = s.decDrop ∧
    t.lock = s.lock ∧ t.writeAnswer = s.writeAnswer ∧ t.todo = s.todo ∧ t.events = s.events ∧
    (t.rxq = s.rxq ∨ t.rxq = []) ∧ s.written <+: t.written ∧ s.results <+: t.results

/-- R136, R122 to R130: the nine outbound calls put these frames on the wire; a blob that is too long
(R125) is refused with nothing else done. -/
def Obligations.CallsSendTheirFrames : Prop :=
  (∀ (s : State) (rest : List Action) (c : HostCall), s.todo = .call c :: rest → CanSend s →
    ∀ bs : List Byte,
      (match c with
       | .getDateTime => bs = [0x2A#8, 0x04#8, 0x00#8, 0x00#8]
       | .setDateTime dt dow => ∃ y1 y0 : Byte, 256 * y1.toNat + y0.toNat = dt.year.toNat ∧
          bs = [0x2A#8, 0x05#8, 0x00#8, 0x08#8, y1, y0, dt.month, dt.day, dt.hour, dt.minute,
            dt.second, dow]
       | .readConfiguration => bs = [0x2A#8, 0x02#8, 0x00#8, 0x00#8]
       | .writeConfiguration blob => ∃ hi lo : Byte, 256 * hi.toNat + lo.toNat = blob.length ∧
          bs = [0x2A#8, 0x03#8, hi, lo] ++ blob
       | .readBatteryStatus => bs = [0x2A#8, 0x06#8, 0x00#8, 0x00#8]
       | .stopSendData => bs = [0x2A#8, 0x08#8, 0x00#8, 0x00#8]
       | .startSendData => bs = [0x2A#8, 0x09#8, 0x00#8, 0x00#8]
       | .showYourself => bs = [0x2A#8, 0x07#8, 0x00#8, 0x00#8]
       | .getSampleData => bs = [0x2A#8, 0x0C#8, 0x00#8, 0x00#8]) →
      step s = .next
        { s with
          rxq := []
          todo := rest
          written := s.written ++ [{ bytes := bs, answer := s.writeAnswer }]
          results := s.results ++ [match s.writeAnswer with
            | .ok => .sent
            | .transportError => .error .transportError] }) ∧
  ∀ (s : State) (rest : List Action) (blob : List Byte),
    s.todo = .call (.writeConfiguration blob) :: rest → 65535 < blob.length →
    step s = .next { s with todo := rest, results := s.results ++ [.error .argumentTooLarge] }

/-! ## DEC -/

/-- R151 to R155: the header states of DEC. -/
def Obligations.HeaderBytesAdvanceTheState : Prop :=
  ∀ (b : Byte) (pf : PartialFrame),
    (pf.bytesConsumed = 0 → b ≠ 0x2A#8 → decByte b pf = (.empty, .desync)) ∧
    (pf.bytesConsumed = 0 → b = 0x2A#8 →
      decByte b pf = ({ pf with bytesConsumed := 1 }, .proceed)) ∧
    (pf.bytesConsumed = 1 →
      decByte b pf = ({ pf with ftype := b, bytesConsumed := 2 }, .proceed)) ∧
    (pf.bytesConsumed = 2 →
      decByte b pf = ({ pf with length := b.zeroExtend 16 <<< 8, bytesConsumed := 3 }, .proceed)) ∧
    (pf.bytesConsumed = 3 →
      decByte b pf =
        ({ pf with length := pf.length ||| b.zeroExtend 16, bytesConsumed := 4, payload := [] },
          .proceed))

/-- R156, R158, R159: a payload byte fills the slot `bytes_consumed - 4`, every other slot keeps what
it holds, and the byte that fills the last slot emits the frame, whose payload is a copy of the
buffer, and empties DEC. -/
def Obligations.PayloadByteFillsItsSlot : Prop :=
  ∀ (b : Byte) (pf : PartialFrame), PfInv pf → 4 ≤ pf.bytesConsumed →
    (pf.bytesConsumed - 4 + 1 < pf.length.toNat → ∃ m : Memory,
      decByte b pf = ({ pf with payload := m, bytesConsumed := pf.bytesConsumed + 1 }, .proceed) ∧
      payRead m (pf.bytesConsumed - 4) = some b ∧
      ∀ k, k ≠ pf.bytesConsumed - 4 → payRead m k = payRead pf.payload k) ∧
    (pf.bytesConsumed - 4 + 1 = pf.length.toNat → ∃ p : List Byte,
      decByte b pf = (.empty, .emit { ftype := pf.ftype, length := pf.length, payload := p }) ∧
      p.length = pf.length.toNat ∧ p[pf.bytesConsumed - 4]? = some b ∧
      ∀ k, k < pf.bytesConsumed - 4 → p[k]? = payRead pf.payload k)

/-- R163, R158: from every state, whatever DEC emits has `length >= 1` and that many payload bytes,
and DEC is then empty. -/
def Obligations.EmittedFramesAreWhole : Prop :=
  ∀ (b : Byte) (pf pf' : PartialFrame) (f : Frame), decByte b pf = (pf', .emit f) →
    1 ≤ f.length.toNat ∧ f.payload.length = f.length.toNat ∧ pf' = .empty

/-- R169, R151: a chunk that begins with a non-magic byte while DEC is in state 0 produces nothing
and leaves DEC ready, however long it is. -/
def Obligations.DesyncDropsTheChunk : Prop :=
  ∀ (s : State) (rest : List Action) (b : Byte) (tail : List Byte),
    s.todo = .rx (b :: tail) :: rest → Ready s → b ≠ 0x2A#8 →
    step s = .next { s with todo := rest, results := s.results ++ [.chunk [] true] }

/-- R150, R151 (b), R297: a desync after a whole frame keeps the frame and its event, and drops
every later byte of the chunk, whole frames among them. -/
def Obligations.DesyncKeepsEarlierFrames : Prop :=
  ∀ (s : State) (rest : List Action) (code b : Byte) (p tail : List Byte),
    s.todo = .rx (frameBytes code p ++ b :: tail) :: rest → Ready s →
    p ≠ [] → p.length ≤ 65535 → b ≠ 0x2A#8 →
    ∀ f : Frame, f.ftype = code → f.length.toNat = p.length → f.payload = p →
    step s = .next { s with
      todo := rest
      results := s.results ++ [.chunk [f] true]
      events := s.events ++ [dispatch f] }

/-- R157, R253: a byte that arrives while DEC is wedged sets `dec.fault` and changes nothing else of
the hardware; no later byte of the chunk is taken. -/
def Obligations.ByteWhenWedgedFaults : Prop :=
  ∀ (s : State) (rest : List Action) (b : Byte) (tail : List Byte),
    s.todo = .rx (b :: tail) :: rest → Open s → s.pf.bytesConsumed = 4 →
    s.pf.length = 0x0000#16 →
    step s = .next { s with
      todo := rest, decFault := true, results := s.results ++ [.overrun []] }

/-- R171: after Close or after the fault a chunk is refused, whatever it holds and whoever holds
the lock. -/
def Obligations.ChunkRefusedWhenStopped : Prop :=
  ∀ (s : State) (rest : List Action) (chunk : List Byte), s.todo = .rx chunk :: rest →
    (s.decClosed = true ∨ s.decFault = true) →
    step s = .next { s with todo := rest, results := s.results ++ [.error .refused] }

/-- R165: the empty chunk changes no state, even when DEC is wedged. -/
def Obligations.EmptyChunkChangesNothing : Prop :=
  ∀ (s : State) (rest : List Action), s.todo = .rx [] :: rest → Open s →
    step s = .next { s with todo := rest, results := s.results ++ [.chunk [] false] }

/-- R168: provided no desync occurs, every way of cutting a byte sequence into chunks gives the same
frames, the same events and the same decoder state as one chunk. -/
def Obligations.FragmentationInvariance : Prop :=
  ∀ (s t u : State) (bs : List Byte) (chunks : List (List Byte)) (r : Result),
    Open s → chunks.flatten = bs →
    step (s.setTodo [.rx bs]) = .next t →
    t.results = s.results ++ [r] → (∀ fs, r ≠ .chunk fs true) →
    runSteps chunks.length (s.setTodo (chunks.map .rx)) = .next u →
    u.emitted = t.emitted ∧ u.events = t.events ∧ u.pf = t.pf ∧ u.decFault = t.decFault

/-- R134 (c), with R53: the bytes of an encoded frame with a payload, cut into any chunks, give one
frame and leave DEC empty. -/
def Obligations.EncodedFrameSurvivesAnyCut : Prop :=
  ∀ (s : State) (cmd : Byte) (args bs : List Byte) (chunks : List (List Byte)), Ready s →
    args ≠ [] → encodeArgs cmd (some args) = .ok bs → chunks.flatten = bs →
    ∃ u f, runSteps chunks.length (s.setTodo (chunks.map .rx)) = .next u ∧
      f.ftype = cmd ∧ f.length.toNat = args.length ∧ f.payload = args ∧
      u.emitted = s.emitted ++ [f] ∧ u.events = s.events ++ [dispatch f] ∧ u.pf = .empty ∧
      u.decFault = false

/-- R166 (the lock as the model reads it: log 10): a non-empty chunk taken byte by byte, `last` on its final byte, leaves what `ProcessChunk`
leaves: PartialFrame, flags, lock, frames and events. -/
def Obligations.ByteSerialIsProcessChunk : Prop :=
  ∀ (s t : State) (init : List Byte) (b : Byte), Open s → s.decDrop = false →
    deliver (init ++ [b]) s = .next t →
    ∃ u, runSteps (init.length + 1)
        (s.setTodo (init.map (fun x => .byteIn x false) ++ [.byteIn b true])) = .next u ∧
      u.pf = t.pf ∧ u.decFault = t.decFault ∧ u.decClosed = t.decClosed ∧
      u.decDrop = t.decDrop ∧ u.lock = t.lock ∧ u.rxq = t.rxq ∧ u.written = t.written ∧
      u.emitted = t.emitted ∧ u.events = t.events

/-! ## Whole-machine rules -/

/-- R26, R27, R292: only a chunk, a byte of a chunk, Close and Reset change the PartialFrame. -/
def Obligations.OnlyTheReceiverChangesThePartialFrame : Prop :=
  ∀ (s t : State), step s = .next t → t.pf ≠ s.pf →
    ∃ a rest, takeReady s s.todo = some (a, rest) ∧
      (a = .close ∨ a = .reset ∨ (∃ chunk, a = .rx chunk) ∨ (∃ b last, a = .byteIn b last) ∨
        ∃ n, a = .onBytes n)

/-- R160: DEC leaves the wedged condition only by Close or Reset; every other step keeps it, with the
PartialFrame as it is. -/
def Obligations.OnlyCloseAndResetUnwedge : Prop :=
  ∀ (s t : State), step s = .next t → s.pf.bytesConsumed = 4 → s.pf.length = 0x0000#16 →
    t.pf = s.pf ∨ ∃ rest, takeReady s s.todo = some (.close, rest) ∨
      takeReady s s.todo = some (.reset, rest)

/-- R29, R247: `dec.fault` is cleared by Reset alone. -/
def Obligations.OnlyResetClearsTheFault : Prop :=
  ∀ (s t : State), step s = .next t → s.decFault = true →
    t.decFault = true ∨ ∃ rest, takeReady s s.todo = some (.reset, rest)

/-- R30, R285, R249: `dec.closed` is cleared by Reset alone; until then nothing is emitted, nothing is
written and no event is produced. -/
def Obligations.CloseIsTerminalUntilReset : Prop :=
  ∀ (s t : State), step s = .next t → s.decClosed = true →
    (t.decClosed = true ∧ t.emitted = s.emitted ∧ t.events = s.events ∧ t.written = s.written) ∨
      ∃ rest, takeReady s s.todo = some (.reset, rest)

/-- R284: Close discards the PartialFrame and sets `dec.closed`, and nothing else. -/
def Obligations.CloseDiscardsThePartialFrame : Prop :=
  ∀ (s : State) (rest : List Action), s.todo = .close :: rest → s.lock = .free →
    step s = .next { s with todo := rest, pf := .empty, decClosed := true }

/-- R281, R280, R282: Reset puts every piece of the hardware's state at its reset value and leaves the
transport's queue. -/
def Obligations.ResetRestoresTheResetState : Prop :=
  ∀ (s : State) (rest : List Action), s.todo = .reset :: rest → s.lock = .free →
    step s = .next { s with
      todo := rest
      pf := { bytesConsumed := 0, ftype := 0x00#8, length := 0x0000#16, payload := [] }
      decFault := false
      decClosed := false
      decDrop := false
      lock := .free }

/-- R245: a timeout changes nothing; that it is recorded as a result is the model's (log 13). -/
def Obligations.TimeoutChangesNothing : Prop :=
  ∀ (s : State) (rest : List Action), s.todo = .timeout :: rest →
    step s = .next { s with todo := rest, results := s.results ++ [.error .transportTimeout] }

/-- R62: an operation that needs the exclusive access and finds it taken has no step: a chunk, a send
whose argument fits, Close and Reset wait, and the machine is as it was (the form of waiting and of an
idle step is the model's: logs 8, 9). -/
def Obligations.OperationsWaitForTheLock : Prop :=
  ∀ (s : State) (a : Action), s.todo = [a] → s.lock ≠ .free → s.decClosed = false →
    s.decFault = false →
    (a = .close ∨ a = .reset ∨ (∃ chunk, a = .rx chunk) ∨
      ∃ cmd args, args.length ≤ 65535 ∧ a = .send cmd (some args)) →
    step s = .next s

/-- R58, R60, R252 (f): a send and a chunk delivered in either order leave the same decoder, frames,
events, flags and writes. -/
def Obligations.SendAndChunkCommute : Prop :=
  ∀ (s t u : State) (chunk : List Byte) (cmd : Byte) (args : Option (List Byte)),
    s.lock = .free →
    runSteps 2 (s.setTodo [.send cmd args, .rx chunk]) = .next t →
    runSteps 2 (s.setTodo [.rx chunk, .send cmd args]) = .next u →
    t.pf = u.pf ∧ t.emitted = u.emitted ∧ t.events = u.events ∧ t.decFault = u.decFault ∧
    t.decClosed = u.decClosed ∧ t.lock = u.lock ∧ t.rxq = u.rxq ∧ t.written = u.written

/-- R260, R33: `on_bytes` removes a non-empty prefix of the transport's queue and delivers exactly
it. -/
def Obligations.OnBytesDeliversAPrefix : Prop :=
  ∀ (s : State) (rest : List Action) (front back : List Byte),
    s.todo = .onBytes front.length :: rest → s.rxq = front ++ back → front ≠ [] → s.lock = .free →
    step s = deliver front { s with todo := rest, rxq := back }

/-! ## The step -/

/-- R150, R132: a delivery that decodes to an instruction is that instruction, and a `SEND` is the
outbound instruction of its command and argument: the step is its `exec`, in the state with the action
taken off the plan (the plan and the direction are the model's: logs 1, 2, 3). -/
def Obligations.StepRunsTheDecodedInstruction : Prop :=
  ∀ (s : State) (rest : List Action),
    (∀ (chunk : List Byte) (i : Instr), s.todo = .rx chunk :: rest → s.lock = .free →
      decode .inbound chunk = .ok (i, []) → step s = exec i (s.setTodo rest)) ∧
    (∀ (cmd : Byte) (args : Option (List Byte)), s.todo = .send cmd args :: rest →
      s.lock = .free → ∃ i : Instr, i.dir = .outbound ∧ i.ftype = cmd ∧ i.payload = argBytes args ∧
        step s = exec i (s.setTodo rest))

/-- R150, R260: a delivered chunk, whether or not it is one frame, is run by `ProcessChunk`. -/
def Obligations.EveryChunkIsProcessedAlike : Prop :=
  ∀ (s : State) (rest : List Action) (chunk : List Byte), s.todo = .rx chunk :: rest →
    s.lock = .free → step s = deliver chunk (s.setTodo rest)

/-! ## Invariants -/

/-- R37, R38: the reset state meets the invariant, and has emitted nothing. -/
def Obligations.ResetMeetsTheInvariant : Prop :=
  StateInv State.reset ∧ FramesWhole State.reset ∧
    State.reset.pf.bytesConsumed = 0 ∧ State.reset.pf.ftype = 0x00#8 ∧
    State.reset.pf.length = 0x0000#16 ∧ (∀ k, payRead State.reset.pf.payload k = none) ∧
    State.reset.decFault = false ∧ State.reset.decClosed = false ∧ State.reset.decDrop = false ∧
    State.reset.lock = .free

/-- R38: every step keeps the invariant. -/
def Obligations.StepKeepsTheInvariant : Prop :=
  ∀ (s t : State), StateInv s → step s = .next t → StateInv t

/-- R24: every step keeps the payload buffer in its canonical form, from every state in that form. -/
def Obligations.StepKeepsTheBufferCanonical : Prop :=
  ∀ (s t : State), memoryWf s.pf.payload = true → step s = .next t →
    memoryWf t.pf.payload = true

/-- R163, R58: every step keeps all emitted frames whole: no decoded frame has a payload length
inconsistent with its declared length. -/
def Obligations.StepKeepsFramesWhole : Prop :=
  ∀ (s t : State), FramesWhole s → step s = .next t → FramesWhole t

/-- R211, R60, R225: every step keeps the events equal to `Dispatch` of the emitted frames, one
event a frame, in emission order. -/
def Obligations.StepKeepsOneEventPerFrame : Prop :=
  ∀ (s t : State), s.events = s.emitted.map dispatch → step s = .next t →
    t.events = t.emitted.map dispatch

/-- R253, R225 (the model's own stop: log 7; an idle step: log 9): from every state that meets the invariant a step answers a next state that meets it:
no error of the protocol stops the machine, and no payload slot without value is ever copied. -/
def Obligations.StepNeverStopsUnderTheInvariant : Prop :=
  ∀ s : State, StateInv s → ∃ t, step s = .next t ∧ StateInv t
end

