-- ==== Sys2Proof/Laws/Memory.lean ====
section
/-! SUPPORT. The payload buffer: read after write, the canonical form, and the buffer that holds
exactly the slots from 0 on (R24). -/

namespace Sys2Proof.Machine

/-- A written slot reads as what was written. -/
theorem payRead_payWrite_same (m : Memory) (i : Nat) (v : Byte) :
    payRead (payWrite m i v) i = some v := by
  induction m with
  | nil => simp [payWrite, payRead]
  | cons c m ih =>
    obtain ⟨a, b⟩ := c
    simp only [payWrite]
    split
    · simp_all [payRead]
    · split
      · simp [payRead]
      · simp_all [payRead]

/-- A write leaves every other slot alone. -/
theorem payRead_payWrite_ne (m : Memory) {i j : Nat} (v : Byte) (h : j ≠ i) :
    payRead (payWrite m i v) j = payRead m j := by
  induction m with
  | nil => simp only [payWrite, payRead, h, if_false]; split <;> rfl
  | cons c m ih =>
    obtain ⟨a, b⟩ := c
    simp only [payWrite]
    split
    · subst_vars; simp [payRead, h]
    · split
      · simp only [payRead, h, if_false]
        split
        · have : ¬ j = a := by omega
          have : j < a := by omega
          simp [*]
        · rfl
      · simp only [payRead, ih]

theorem memoryWfFrom_payWrite {m : Memory} {lo i : Nat} (v : Byte) (h : memoryWfFrom lo m = true)
    (hi : lo ≤ i) : memoryWfFrom lo (payWrite m i v) = true := by
  induction m generalizing lo with
  | nil => simp [payWrite, memoryWfFrom, hi]
  | cons c m ih =>
    obtain ⟨a, b⟩ := c
    simp only [memoryWfFrom, Bool.and_eq_true, decide_eq_true_eq] at h
    simp only [payWrite]
    split
    · simpa [memoryWfFrom] using h
    · split
      · simp only [memoryWfFrom, Bool.and_eq_true, decide_eq_true_eq]
        exact ⟨hi, by omega, h.2⟩
      · simp only [memoryWfFrom, Bool.and_eq_true, decide_eq_true_eq]
        exact ⟨h.1, ih h.2 (by omega)⟩

/-- Every write keeps the canonical form. -/
theorem memoryWf_payWrite {m : Memory} (i : Nat) (v : Byte) (h : memoryWf m = true) :
    memoryWf (payWrite m i v) = true :=
  memoryWfFrom_payWrite v h (Nat.zero_le i)

/-- The buffer whose slots from `k` on hold the given bytes and no other slot a value. -/
def slotsFrom (k : Nat) : List Byte → Memory
  | [] => []
  | b :: bs => (k, b) :: slotsFrom (k + 1) bs

theorem slotsFrom_append (k : Nat) (bs : List Byte) (v : Byte) :
    payWrite (slotsFrom k bs) (k + bs.length) v = slotsFrom k (bs ++ [v]) := by
  induction bs generalizing k with
  | nil => simp [slotsFrom, payWrite]
  | cons b bs ih =>
    simp only [slotsFrom, payWrite, List.length_cons, List.cons_append]
    have h1 : ¬ k + (bs.length + 1) = k := by omega
    have h2 : ¬ k + (bs.length + 1) < k := by omega
    simp only [h1, h2, if_false]
    have := ih (k + 1)
    rw [show k + 1 + bs.length = k + (bs.length + 1) by omega] at this
    rw [this]

theorem payRead_slotsFrom_lt (k j : Nat) (bs : List Byte) (h : j < k) :
    payRead (slotsFrom k bs) j = none := by
  cases bs with
  | nil => rfl
  | cons b bs =>
    have : ¬ j = k := by omega
    simp [slotsFrom, payRead, this, h]

theorem payRead_slotsFrom (k j : Nat) (bs : List Byte) :
    payRead (slotsFrom k bs) (k + j) = bs[j]? := by
  induction bs generalizing k j with
  | nil => simp [slotsFrom, payRead]
  | cons b bs ih =>
    cases j with
    | zero => simp [slotsFrom, payRead]
    | succ j =>
      have h1 : ¬ k + (j + 1) = k := by omega
      have h2 : ¬ k + (j + 1) < k := by omega
      simp only [slotsFrom, payRead, h1, h2, if_false, List.getElem?_cons_succ]
      rw [show k + (j + 1) = k + 1 + j by omega, ih]

theorem payCopy_cons_skip (i n a : Nat) (b : Byte) (m : Memory) (h : a < i) :
    payCopy ((a, b) :: m) i n = payCopy m i n := by
  induction n generalizing i with
  | zero => rfl
  | succ n ih =>
    have h1 : ¬ i = a := by omega
    have h2 : ¬ i < a := by omega
    simp only [payCopy, payRead, h1, h2, if_false]
    rw [ih (i + 1) (by omega)]

/-- A full buffer is copied whole. -/
theorem payCopy_slotsFrom (k : Nat) (bs : List Byte) :
    payCopy (slotsFrom k bs) k bs.length = .ok bs := by
  induction bs generalizing k with
  | nil => rfl
  | cons b bs ih =>
    simp only [slotsFrom, List.length_cons, payCopy, payRead, if_true]
    rw [payCopy_cons_skip (k + 1) bs.length k b _ (by omega), ih]

/-- A copy has as many bytes as slots were asked for. -/
theorem payCopy_length {m : Memory} {i n : Nat} {bs : List Byte} (h : payCopy m i n = .ok bs) :
    bs.length = n := by
  induction n generalizing i bs with
  | zero => cases h; rfl
  | succ n ih =>
    simp only [payCopy] at h
    split at h
    · cases h
    · split at h
      · cases h
        rename_i heq
        simp [ih heq]
      · cases h

/-- The invariant's form of the buffer: the slots `0 .. n-1` and no other. -/
theorem slots_eq_slotsFrom (k n : Nat) (m : Memory) (h : m.map Prod.fst = List.range' k n) :
    m = slotsFrom k (m.map Prod.snd) ∧ (m.map Prod.snd).length = n := by
  induction n generalizing k m with
  | zero =>
    have : m = [] := by simpa using h
    subst this; exact ⟨rfl, rfl⟩
  | succ n ih =>
    cases m with
    | nil => simp [List.range'_succ] at h
    | cons c m =>
      obtain ⟨a, b⟩ := c
      simp only [List.map_cons, List.range'_succ, List.cons.injEq] at h
      obtain ⟨ha, hm⟩ := h
      obtain ⟨e, l⟩ := ih (k + 1) m hm
      subst ha
      constructor
      · simp only [List.map_cons, slotsFrom]; rw [← e]
      · simpa using l

theorem map_fst_slotsFrom (k : Nat) (bs : List Byte) :
    (slotsFrom k bs).map Prod.fst = List.range' k bs.length := by
  induction bs generalizing k with
  | nil => rfl
  | cons b bs ih => simp [slotsFrom, List.range'_succ, ih]

end Sys2Proof.Machine
end

