-- ==== Sys2Proof/Laws/Wire.lean ====
section
/-! SUPPORT. The wire format: byte order (R50), the frame's bytes (R80), and what `splitFrame`,
`cmdOf` and `refine` do with them. -/

namespace Sys2Proof

theorem loByte_toNat (v : Half) : (loByte v).toNat = v.toNat % 256 := by
  simp [loByte]

theorem hiByte_toNat (v : Half) : (hiByte v).toNat = v.toNat / 256 := by
  have h := v.isLt
  simp [hiByte, Nat.shiftRight_eq_div_pow]
  omega

theorem be16_toNat (a b : Byte) : (be16 a b).toNat = a.toNat * 256 + b.toNat := by
  have ha := a.isLt
  have hb := b.isLt
  have h1 : a.toNat % 65536 = a.toNat := Nat.mod_eq_of_lt (by omega)
  have h2 : b.toNat % 65536 = b.toNat := Nat.mod_eq_of_lt (by omega)
  have h3 : a.toNat <<< 8 % 65536 = a.toNat <<< 8 := by
    rw [Nat.shiftLeft_eq]; exact Nat.mod_eq_of_lt (by omega)
  simp only [be16, BitVec.toNat_or, BitVec.toNat_shiftLeft, BitVec.truncate_eq_setWidth,
    BitVec.toNat_setWidth, Nat.reducePow, h1, h2, h3]
  rw [← Nat.shiftLeft_add_eq_or_of_lt hb, Nat.shiftLeft_eq]

/-- Two bytes of a half word give it back (R88). -/
theorem be16_hi_lo (v : Half) : be16 (hiByte v) (loByte v) = v := by
  apply BitVec.eq_of_toNat_eq
  rw [be16_toNat, hiByte_toNat, loByte_toNat]
  omega

theorem hiByte_be16 (a b : Byte) : hiByte (be16 a b) = a := by
  apply BitVec.eq_of_toNat_eq
  have hb := b.isLt
  rw [hiByte_toNat, be16_toNat]
  omega

theorem loByte_be16 (a b : Byte) : loByte (be16 a b) = b := by
  apply BitVec.eq_of_toNat_eq
  have hb := b.isLt
  rw [loByte_toNat, be16_toNat]
  omega

/-- Or-ing in what lies below a shifted number adds it. -/
theorem shiftLeft_or_eq (k x y w : Nat) (hw : 2 ^ k = w) (h : y < w) : x <<< k ||| y = x * w + y := by
  subst hw
  rw [← Nat.shiftLeft_add_eq_or_of_lt h, Nat.shiftLeft_eq]

theorem be32_toNat (a b c d : Byte) :
    (be32 a b c d).toNat =
      a.toNat * 16777216 + b.toNat * 65536 + c.toNat * 256 + d.toNat := by
  have ha := a.isLt
  have hb := b.isLt
  have hc := c.isLt
  have hd := d.isLt
  have e (x : Byte) : x.toNat % 4294967296 = x.toNat := Nat.mod_eq_of_lt (by have := x.isLt; omega)
  have f (x k w : Nat) (hw : 2 ^ k = w) : x <<< k = x * w := by rw [Nat.shiftLeft_eq, hw]
  have h3 : a.toNat <<< 24 % 4294967296 = a.toNat <<< 24 :=
    Nat.mod_eq_of_lt (by rw [f _ 24 16777216 (by norm_num)]; omega)
  have h4 : b.toNat <<< 16 % 4294967296 = b.toNat <<< 16 :=
    Nat.mod_eq_of_lt (by rw [f _ 16 65536 (by norm_num)]; omega)
  have h5 : c.toNat <<< 8 % 4294967296 = c.toNat <<< 8 :=
    Nat.mod_eq_of_lt (by rw [f _ 8 256 (by norm_num)]; omega)
  simp only [be32, BitVec.toNat_or, BitVec.toNat_shiftLeft, BitVec.truncate_eq_setWidth,
    BitVec.toNat_setWidth, Nat.reducePow, e, h3, h4, h5]
  have q1 : c.toNat <<< 8 ||| d.toNat = c.toNat * 256 + d.toNat :=
    shiftLeft_or_eq 8 _ _ 256 (by norm_num) hd
  have q2 : b.toNat <<< 16 ||| (c.toNat * 256 + d.toNat) = b.toNat * 65536 + (c.toNat * 256 + d.toNat) :=
    shiftLeft_or_eq 16 _ _ 65536 (by norm_num) (by omega)
  rw [Nat.or_assoc, Nat.or_assoc, q1, q2,
    shiftLeft_or_eq 24 _ _ 16777216 (by norm_num) (by omega)]
  omega

/-- The length field of a payload that fits holds its length (R80). -/
theorem length_field_toNat {p : List Byte} (h : p.length ≤ Config.maxPayload) :
    (BitVec.ofNat 16 p.length).toNat = p.length := by
  simp only [BitVec.toNat_ofNat]
  exact Nat.mod_eq_of_lt (by simp only [Config.maxPayload] at h; omega)

theorem frameBytes_length (code : Byte) (p : List Byte) :
    (frameBytes code p).length = Config.headerLen + p.length := by
  simp only [frameBytes, Config.headerLen, List.length_cons]
  omega

/-- A frame's bytes are split where it ends (R81). -/
theorem splitFrame_frameBytes (code : Byte) (p rest : List Byte)
    (h : p.length ≤ Config.maxPayload) :
    splitFrame (frameBytes code p ++ rest) = .ok (code, p, rest) := by
  simp [frameBytes, splitFrame, be16_hi_lo, length_field_toNat h]

/-- What was split joins to what it was, and the payload fits (R80). -/
theorem splitFrame_ok {bs p rest : List Byte} {t : Byte}
    (h : splitFrame bs = .ok (t, p, rest)) :
    p.length ≤ Config.maxPayload ∧ frameBytes t p ++ rest = bs := by
  match bs, h with
  | m :: t' :: hi :: lo :: tl, h =>
    simp only [splitFrame] at h
    split at h
    · cases h
    · split at h
      · cases h
      · rename_i hm hl
        have hm : m = Config.magic := by simpa using hm
        cases h
        have hlen : (tl.take (be16 hi lo).toNat).length = (be16 hi lo).toNat := by
          simp only [List.length_take]; omega
        have hlt := (be16 hi lo).isLt
        refine ⟨by rw [hlen]; simp only [Config.maxPayload]; omega, ?_⟩
        simp [frameBytes, hlen, BitVec.ofNat_toNat, hiByte_be16, loByte_be16, hm]
  | [_, _, _], h | [_, _], h | [_], h => simp only [splitFrame] at h; split at h <;> cases h

/-- The instruction a type byte selects has that type, payload and direction. -/
theorem frameInstr_fields (d : Dir) (c : Byte) (p : List Byte) :
    (frameInstr d c p).dir = d ∧ (frameInstr d c p).payload = p ∧
      (frameInstr d c p).ftype = c := by
  refine ⟨?_, ?_, ?_⟩
  · unfold frameInstr; split <;> rfl
  · unfold frameInstr; split <;> rfl
  · have key : ∀ c : Byte, (frameInstr .inbound c []).ftype = c := by decide
    have same : (frameInstr d c p).ftype = (frameInstr .inbound c []).ftype := by
      unfold frameInstr; cases cmdOf c <;> rfl
    rw [same, key]

/-- `refine` keeps direction, type and payload (R86: both levels match on the same bytes). -/
theorem refine_fields (i : Instr) :
    (refine i).dir = i.dir ∧ (refine i).payload = i.payload ∧ (refine i).ftype = i.ftype := by
  have hack (d : Dir) (o : Byte) (a : List Byte) : (ackInstr d o a).dir = d ∧
      (ackInstr d o a).payload = o :: a ∧ (ackInstr d o a).ftype = 0x00#8 := by
    unfold ackInstr
    split
    case h_6 => exact ⟨rfl, rfl, rfl⟩
    all_goals
      rename_i h
      refine ⟨rfl, ?_, rfl⟩
      simp only [Instr.payload, List.cons.injEq, and_true]
      exact BitVec.eq_of_toNat_eq (by rw [h]; rfl)
  unfold refine
  split
  · exact hack _ _ _
  · exact ⟨rfl, rfl, rfl⟩
  · exact ⟨rfl, rfl, rfl⟩

/-- A byte has a command exactly when it is an assigned code (R84). -/
theorem cmdOf_unknown_iff (b : Byte) : cmdOf b = .unknown ↔ isAssignedCode b = false := by
  revert b; decide

end Sys2Proof
end

