-- ==== Sys2Proof/Laws/Decoder.lean ====
section
/-! SUPPORT. DEC: what one byte can do (R161, R162), what a chunk's loop can do (R150), and how the
bytes of whole frames run. -/

namespace Sys2Proof.Machine

/-! ## The end of a byte step -/

theorem settle_incomplete {pf : PartialFrame} (h : isComplete pf = false) :
    settle pf = (pf, .proceed) := by
  simp [settle, h]

theorem settle_complete {pf : PartialFrame} {p : List Byte} (h : isComplete pf = true)
    (hp : payCopy pf.payload 0 pf.length.toNat = .ok p) :
    settle pf = (.empty, .emit { ftype := pf.ftype, length := pf.length, payload := p }) := by
  simp [settle, h, hp]

/-- Everything `settle` can do. -/
theorem settle_cases {pf pf' : PartialFrame} {r : ByteResult} (h : settle pf = (pf', r)) :
    (isComplete pf = false ∧ pf' = pf ∧ r = .proceed) ∨
    (isComplete pf = true ∧ pf' = .empty ∧ ∃ p, payCopy pf.payload 0 pf.length.toNat = .ok p ∧
      r = .emit { ftype := pf.ftype, length := pf.length, payload := p }) ∨
    (isComplete pf = true ∧ pf' = pf ∧ ∃ i, payCopy pf.payload 0 pf.length.toNat = .error i ∧
      r = .noValue i) := by
  unfold settle at h
  split at h
  · rename_i hc
    split at h
    · rename_i p hp
      cases h
      exact .inr (.inl ⟨hc, rfl, p, hp, rfl⟩)
    · rename_i i hp
      cases h
      exact .inr (.inr ⟨hc, rfl, i, hp, rfl⟩)
  · rename_i hc
    cases h
    exact .inl ⟨by simpa using hc, rfl, rfl⟩

/-! ## One byte -/

theorem decByte_magic {pf : PartialFrame} (b : Byte) (h : pf.bytesConsumed = 0)
    (hb : b = Config.magic) : decByte b pf = ({ pf with bytesConsumed := 1 }, .proceed) := by
  simp [decByte, h, isMagic, hb]

theorem decByte_desync {pf : PartialFrame} (b : Byte) (h : pf.bytesConsumed = 0)
    (hb : b ≠ Config.magic) : decByte b pf = (.empty, .desync) := by
  simp [decByte, h, isMagic, hb]

theorem decByte_type {pf : PartialFrame} (b : Byte) (h : pf.bytesConsumed = 1) :
    decByte b pf = ({ pf with ftype := b, bytesConsumed := 2 }, .proceed) := by
  simp [decByte, h]

theorem decByte_lengthHi {pf : PartialFrame} (b : Byte) (h : pf.bytesConsumed = 2) :
    decByte b pf = ({ pf with length := b.zeroExtend 16 <<< 8, bytesConsumed := 3 }, .proceed) := by
  simp [decByte, h]

/-- No frame completes on the header alone (R155). -/
theorem decByte_lengthLo {pf : PartialFrame} (b : Byte) (h : pf.bytesConsumed = 3) :
    decByte b pf =
      ({ pf with length := pf.length ||| b.zeroExtend 16, bytesConsumed := 4, payload := [] },
        .proceed) := by
  simp only [decByte, h]
  exact settle_incomplete (by simp [isComplete, Config.headerLen]; omega)

theorem decByte_payload {pf : PartialFrame} (b : Byte) (h : 4 ≤ pf.bytesConsumed) :
    decByte b pf =
      if slotExists pf then
        settle { pf with payload := payWrite pf.payload (pf.bytesConsumed - 4) b,
                         bytesConsumed := pf.bytesConsumed + 1 }
      else (pf, .overrun) := by
  unfold decByte
  split
  · omega
  · omega
  · omega
  · omega
  · rfl

/-- Everything one byte can do (R161, R167). -/
theorem decByte_cases {b : Byte} {pf pf' : PartialFrame} {r : ByteResult}
    (h : decByte b pf = (pf', r)) :
    (pf.bytesConsumed = 0 ∧ b = Config.magic ∧ pf' = { pf with bytesConsumed := 1 } ∧
      r = .proceed) ∨
    (pf.bytesConsumed = 0 ∧ b ≠ Config.magic ∧ pf' = .empty ∧ r = .desync) ∨
    (pf.bytesConsumed = 1 ∧ pf' = { pf with ftype := b, bytesConsumed := 2 } ∧ r = .proceed) ∨
    (pf.bytesConsumed = 2 ∧
      pf' = { pf with length := b.zeroExtend 16 <<< 8, bytesConsumed := 3 } ∧ r = .proceed) ∨
    (pf.bytesConsumed = 3 ∧
      pf' = { pf with length := pf.length ||| b.zeroExtend 16, bytesConsumed := 4,
                      payload := [] } ∧ r = .proceed) ∨
    (4 ≤ pf.bytesConsumed ∧ slotExists pf = true ∧
      settle { pf with payload := payWrite pf.payload (pf.bytesConsumed - 4) b,
                       bytesConsumed := pf.bytesConsumed + 1 } = (pf', r)) ∨
    (4 ≤ pf.bytesConsumed ∧ slotExists pf = false ∧ pf' = pf ∧ r = .overrun) := by
  rcases Nat.lt_or_ge pf.bytesConsumed 4 with hlt | hge
  · obtain h0 | h1 | h2 | h3 : pf.bytesConsumed = 0 ∨ pf.bytesConsumed = 1 ∨
        pf.bytesConsumed = 2 ∨ pf.bytesConsumed = 3 := by omega
    · by_cases hb : b = Config.magic
      · rw [decByte_magic b h0 hb] at h; cases h; exact .inl ⟨h0, hb, rfl, rfl⟩
      · rw [decByte_desync b h0 hb] at h; cases h; exact .inr (.inl ⟨h0, hb, rfl, rfl⟩)
    · rw [decByte_type b h1] at h; cases h; exact .inr (.inr (.inl ⟨h1, rfl, rfl⟩))
    · rw [decByte_lengthHi b h2] at h; cases h; exact .inr (.inr (.inr (.inl ⟨h2, rfl, rfl⟩)))
    · rw [decByte_lengthLo b h3] at h; cases h
      exact .inr (.inr (.inr (.inr (.inl ⟨h3, rfl, rfl⟩))))
  · rw [decByte_payload b hge] at h
    split at h
    · rename_i hs
      exact .inr (.inr (.inr (.inr (.inr (.inl ⟨hge, hs, h⟩)))))
    · rename_i hs
      cases h
      exact .inr (.inr (.inr (.inr (.inr (.inr ⟨hge, by simpa using hs, rfl, rfl⟩)))))

/-- An emitted frame is whole (R163) and leaves DEC empty (R159). -/
theorem decByte_emit {b : Byte} {pf pf' : PartialFrame} {f : Frame}
    (h : decByte b pf = (pf', .emit f)) : f.whole = true ∧ pf' = .empty := by
  obtain ⟨_, _, _, hr⟩ | ⟨_, _, _, hr⟩ | ⟨_, _, hr⟩ | ⟨_, _, hr⟩ | ⟨_, _, hr⟩ | ⟨_, _, hs⟩ |
    ⟨_, _, _, hr⟩ := decByte_cases h
  any_goals cases hr
  obtain ⟨_, _, hr⟩ | ⟨hc, hp, p, hcopy, hr⟩ | ⟨_, _, _, _, hr⟩ := settle_cases hs
  any_goals cases hr
  have hl := payCopy_length hcopy
  refine ⟨?_, hp⟩
  simp only [isComplete, Bool.and_eq_true, decide_eq_true_eq] at hc
  simp only [Frame.whole, Bool.and_eq_true, decide_eq_true_eq, beq_iff_eq]
  exact ⟨hc.1, hl⟩

/-- Only the magic test stops a chunk without a fault, and it leaves DEC empty (R151). -/
theorem decByte_desync_empty {b : Byte} {pf pf' : PartialFrame}
    (h : decByte b pf = (pf', .desync)) : pf' = .empty := by
  obtain ⟨_, _, _, hr⟩ | ⟨_, _, hp, hr⟩ | ⟨_, _, hr⟩ | ⟨_, _, hr⟩ | ⟨_, _, hr⟩ | ⟨_, _, hs⟩ |
    ⟨_, _, _, hr⟩ := decByte_cases h
  any_goals cases hr
  · exact hp
  · obtain ⟨_, _, hr⟩ | ⟨_, _, _, _, hr⟩ | ⟨_, _, _, _, hr⟩ := settle_cases hs <;> cases hr

/-- An overrun keeps the PartialFrame (R157). -/
theorem decByte_overrun {b : Byte} {pf pf' : PartialFrame}
    (h : decByte b pf = (pf', .overrun)) : pf' = pf ∧ 4 ≤ pf.bytesConsumed ∧ slotExists pf = false := by
  obtain ⟨_, _, _, hr⟩ | ⟨_, _, hp, hr⟩ | ⟨_, _, hr⟩ | ⟨_, _, hr⟩ | ⟨_, _, hr⟩ | ⟨_, _, hs⟩ |
    ⟨h4, hsl, hp, hr⟩ := decByte_cases h
  any_goals cases hr
  · obtain ⟨_, _, hr⟩ | ⟨_, _, _, _, hr⟩ | ⟨_, _, _, _, hr⟩ := settle_cases hs <;> cases hr
  · exact ⟨hp, h4, hsl⟩

/-! ## The canonical form of the buffer -/

theorem decByte_memoryWf {b : Byte} {pf pf' : PartialFrame} {r : ByteResult}
    (h : decByte b pf = (pf', r)) (hw : memoryWf pf.payload = true) :
    memoryWf pf'.payload = true := by
  obtain ⟨_, _, hp, _⟩ | ⟨_, _, hp, _⟩ | ⟨_, hp, _⟩ | ⟨_, hp, _⟩ | ⟨_, hp, _⟩ | ⟨_, _, hs⟩ |
    ⟨_, _, hp, _⟩ := decByte_cases h
  any_goals (subst hp; first | exact hw | rfl)
  have hw' := memoryWf_payWrite (pf.bytesConsumed - 4) b hw
  obtain ⟨_, hp, _⟩ | ⟨_, hp, _⟩ | ⟨_, hp, _⟩ := settle_cases hs
  all_goals subst hp
  · exact hw'
  · rfl
  · exact hw'

/-! ## The invariant R38 (a) to (d) -/

theorem pfInv_empty : PfInv .empty where
  counter := by decide
  typeClear _ := rfl
  lengthClear _ := rfl
  lengthLow h := by cases h
  inBounds h := by exact absurd h (by decide)
  slots := rfl

/-- The buffer of a PartialFrame that meets the invariant holds a list of bytes from slot 0. -/
theorem PfInv.buffer {pf : PartialFrame} (h : PfInv pf) :
    ∃ bs : List Byte, pf.payload = slotsFrom 0 bs ∧ bs.length = pf.bytesConsumed - 4 := by
  have hs := h.slots
  rw [List.range_eq_range'] at hs
  obtain ⟨e, l⟩ := slots_eq_slotsFrom 0 _ _ hs
  exact ⟨_, e, l⟩

theorem slotExists_iff {pf : PartialFrame} :
    slotExists pf = true ↔ pf.bytesConsumed - 4 < pf.length.toNat := by
  simp [slotExists, Config.headerLen]

theorem isComplete_iff {pf : PartialFrame} :
    isComplete pf = true ↔ 0 < pf.length.toNat ∧ pf.bytesConsumed = 4 + pf.length.toNat := by
  simp [isComplete, Config.headerLen]

theorem isWedged_iff {pf : PartialFrame} :
    isWedged pf = true ↔ pf.bytesConsumed = 4 ∧ pf.length = 0x0000#16 := by
  simp [isWedged, Config.headerLen]

/-- A payload byte that does not complete the frame (R156). -/
theorem decByte_fill {pf : PartialFrame} (b : Byte) (h : 4 ≤ pf.bytesConsumed)
    (hlt : pf.bytesConsumed - 4 + 1 < pf.length.toNat) :
    decByte b pf =
      ({ pf with payload := payWrite pf.payload (pf.bytesConsumed - 4) b,
                 bytesConsumed := pf.bytesConsumed + 1 }, .proceed) := by
  rw [decByte_payload b h, if_pos (slotExists_iff.mpr (by omega))]
  apply settle_incomplete
  rw [Bool.eq_false_iff]
  intro hc
  have := (isComplete_iff.mp hc).2
  simp only at this
  omega

/-- The payload byte that completes the frame (R156, R158, R159). -/
theorem decByte_last {pf : PartialFrame} (b : Byte) (bs : List Byte)
    (h : 4 ≤ pf.bytesConsumed) (hp : pf.payload = slotsFrom 0 bs)
    (hl : bs.length = pf.bytesConsumed - 4) (hlt : bs.length + 1 = pf.length.toNat) :
    decByte b pf =
      (.empty, .emit { ftype := pf.ftype, length := pf.length, payload := bs ++ [b] }) := by
  rw [decByte_payload b h, if_pos (slotExists_iff.mpr (by omega))]
  apply settle_complete
  · exact isComplete_iff.mpr ⟨by simp only; omega, by simp only; omega⟩
  · simp only [hp]
    have hw : payWrite (slotsFrom 0 bs) (pf.bytesConsumed - 4) b = slotsFrom 0 (bs ++ [b]) := by
      rw [← slotsFrom_append, ← hl, Nat.zero_add]
    rw [hw, ← hlt]
    have := payCopy_slotsFrom 0 (bs ++ [b])
    simpa using this

/-- One byte keeps the invariant, and never meets a slot without value. -/
theorem decByte_pfInv {b : Byte} {pf pf' : PartialFrame} {r : ByteResult}
    (h : decByte b pf = (pf', r)) (hi : PfInv pf) : PfInv pf' ∧ ∀ i, r ≠ .noValue i := by
  obtain ⟨h0, _, hp, hr⟩ | ⟨_, _, hp, hr⟩ | ⟨h1, hp, hr⟩ | ⟨h2, hp, hr⟩ | ⟨h3, hp, hr⟩ |
    ⟨h4, hsl, hs⟩ | ⟨_, _, hp, hr⟩ := decByte_cases h
  · subst hp hr
    refine ⟨⟨by simp, fun _ => hi.typeClear (by omega), fun _ => hi.lengthClear (by omega),
      fun h => by simp at h, fun h => by simp at h, ?_⟩, by simp⟩
    have := hi.slots; rw [h0] at this; simpa using this
  · subst hp hr; exact ⟨pfInv_empty, by simp⟩
  · subst hp hr
    refine ⟨⟨by simp, fun h => by simp at h, fun _ => hi.lengthClear (by omega),
      fun h => by simp at h, fun h => by simp at h, ?_⟩, by simp⟩
    have := hi.slots; rw [h1] at this; simpa using this
  · subst hp hr
    refine ⟨⟨by simp, fun h => by simp at h, fun h => by simp at h, fun _ => ?_,
      fun h => by simp at h, ?_⟩, by simp⟩
    · simp only [loByte]
      apply BitVec.eq_of_toNat_eq
      simp [Nat.shiftLeft_eq]
    · have := hi.slots; rw [h2] at this; simpa using this
  · subst hp hr
    refine ⟨⟨by simp, fun h => by simp at h, fun h => by simp at h, fun h => by simp at h,
      fun _ => ?_, by simp⟩, by simp⟩
    simp only
    by_cases hz : pf.length ||| b.zeroExtend 16 = 0x0000#16
    · exact .inl ⟨hz, trivial⟩
    · right
      rcases Nat.eq_zero_or_pos (pf.length ||| b.zeroExtend 16).toNat with hz' | hpos
      · exact absurd (BitVec.eq_of_toNat_eq (by rw [hz']; rfl)) hz
      · omega
  · obtain ⟨bs, hbs, hl⟩ := hi.buffer
    have hlt := slotExists_iff.mp hsl
    have hlen := pf.length.isLt
    by_cases hlast : pf.bytesConsumed - 4 + 1 < pf.length.toNat
    · rw [decByte_fill b h4 hlast] at h
      cases h
      refine ⟨⟨by simp only; omega, fun h => by simp only at h; omega,
        fun h => by simp only at h; omega, fun h => by simp only at h; omega,
        fun _ => .inr (by simp only; omega), ?_⟩, by simp⟩
      simp only [hbs]
      have hw : payWrite (slotsFrom 0 bs) (pf.bytesConsumed - 4) b = slotsFrom 0 (bs ++ [b]) := by
        rw [← slotsFrom_append, ← hl, Nat.zero_add]
      rw [hw, map_fst_slotsFrom, List.range_eq_range']
      congr 1
      simp only [List.length_append, List.length_singleton]
      omega
    · rw [decByte_last b bs h4 hbs hl (by omega)] at h
      cases h
      exact ⟨pfInv_empty, by simp⟩
  · subst hp hr; exact ⟨hi, by simp⟩

/-- Under the invariant an overrun is met only when wedged (R157). -/
theorem decByte_overrun_wedged {b : Byte} {pf pf' : PartialFrame}
    (h : decByte b pf = (pf', .overrun)) (hi : PfInv pf) : pf' = pf ∧ isWedged pf = true := by
  obtain ⟨hp, h4, hsl⟩ := decByte_overrun h
  refine ⟨hp, isWedged_iff.mpr ?_⟩
  rcases hi.inBounds h4 with ⟨hl, hb⟩ | hb
  · exact ⟨hb, hl⟩
  · rw [slotExists_iff.mpr hb] at hsl; cases hsl

/-- A byte taken when wedged overruns (R157). -/
theorem decByte_wedged (b : Byte) {pf : PartialFrame} (h : isWedged pf = true) :
    decByte b pf = (pf, .overrun) := by
  obtain ⟨hb, hl⟩ := isWedged_iff.mp h
  rw [decByte_payload b (by omega), if_neg]
  rw [Bool.not_eq_true, Bool.eq_false_iff]
  intro hs
  have := slotExists_iff.mp hs
  rw [hl] at this
  simp at this

/-! ## A chunk's loop -/

theorem runBytes_proceed {b : Byte} {bs : List Byte} {pf pf' : PartialFrame}
    (h : decByte b pf = (pf', .proceed)) : runBytes (b :: bs) pf = runBytes bs pf' := by
  simp [runBytes, h]

theorem runBytes_emit {b : Byte} {bs : List Byte} {pf pf' : PartialFrame} {f : Frame}
    (h : decByte b pf = (pf', .emit f)) :
    runBytes (b :: bs) pf =
      ((runBytes bs pf').1, f :: (runBytes bs pf').2.1, (runBytes bs pf').2.2) := by
  simp [runBytes, h]

/-- A chunk that is drained can be cut anywhere (R168, R170). -/
theorem runBytes_append {a b : List Byte} {pf pf₁ : PartialFrame} {fs : List Frame}
    (h : runBytes a pf = (pf₁, fs, .drained)) :
    runBytes (a ++ b) pf =
      ((runBytes b pf₁).1, fs ++ (runBytes b pf₁).2.1, (runBytes b pf₁).2.2) := by
  induction a generalizing pf fs with
  | nil => cases h; simp
  | cons x xs ih =>
    rcases hd : decByte x pf with ⟨pf', r⟩
    cases r with
    | proceed =>
      rw [runBytes_proceed hd] at h
      rw [List.cons_append, runBytes_proceed hd]
      exact ih h
    | emit f =>
      rw [runBytes_emit hd] at h
      rw [List.cons_append, runBytes_emit hd]
      rcases hr : runBytes xs pf' with ⟨p2, g, e⟩
      rw [hr] at h
      simp only [Prod.mk.injEq] at h
      obtain ⟨rfl, rfl, rfl⟩ := h
      rw [ih hr]
      rfl
    | desync => simp [runBytes, hd] at h
    | overrun => simp [runBytes, hd] at h
    | noValue i => simp [runBytes, hd] at h

/-- A chunk that stops early stops so whatever follows it. -/
theorem runBytes_append_stopped {a b : List Byte} {pf pf₁ : PartialFrame} {fs : List Frame}
    {e : ChunkEnd} (h : runBytes a pf = (pf₁, fs, e)) (he : e ≠ .drained) :
    runBytes (a ++ b) pf = (pf₁, fs, e) := by
  induction a generalizing pf fs with
  | nil => cases h; exact absurd rfl he
  | cons x xs ih =>
    rcases hd : decByte x pf with ⟨pf', r⟩
    cases r with
    | proceed =>
      rw [runBytes_proceed hd] at h
      rw [List.cons_append, runBytes_proceed hd]
      exact ih h
    | emit f =>
      rw [runBytes_emit hd] at h
      rw [List.cons_append, runBytes_emit hd]
      rcases hr : runBytes xs pf' with ⟨p2, g, e2⟩
      rw [hr] at h
      simp only [Prod.mk.injEq] at h
      obtain ⟨rfl, rfl, rfl⟩ := h
      rw [ih hr]
    | desync => simpa [runBytes, hd] using h
    | overrun => simpa [runBytes, hd] using h
    | noValue i => simpa [runBytes, hd] using h

/-- A property that every byte keeps, the whole loop keeps. -/
theorem runBytes_induct {P : PartialFrame → Prop}
    (step : ∀ b pf pf' r, decByte b pf = (pf', r) → P pf → P pf')
    {bs : List Byte} {pf pf' : PartialFrame} {fs : List Frame} {e : ChunkEnd}
    (h : runBytes bs pf = (pf', fs, e)) (hp : P pf) : P pf' := by
  induction bs generalizing pf fs with
  | nil => cases h; exact hp
  | cons x xs ih =>
    rcases hd : decByte x pf with ⟨p1, r⟩
    have h1 := step _ _ _ _ hd hp
    cases r with
    | proceed => rw [runBytes_proceed hd] at h; exact ih h h1
    | emit f =>
      rw [runBytes_emit hd] at h
      rcases hr : runBytes xs p1 with ⟨p2, g, e2⟩
      rw [hr] at h
      cases h
      exact ih hr h1
    | desync => simp only [runBytes, hd] at h; cases h; exact h1
    | overrun => simp only [runBytes, hd] at h; cases h; exact h1
    | noValue i => simp only [runBytes, hd] at h; cases h; exact h1

theorem runBytes_memoryWf {bs : List Byte} {pf pf' : PartialFrame} {fs : List Frame} {e : ChunkEnd}
    (h : runBytes bs pf = (pf', fs, e)) (hw : memoryWf pf.payload = true) :
    memoryWf pf'.payload = true :=
  runBytes_induct (P := fun p => memoryWf p.payload = true)
    (fun _ _ _ _ hd hp => decByte_memoryWf hd hp) h hw

theorem runBytes_pfInv {bs : List Byte} {pf pf' : PartialFrame} {fs : List Frame} {e : ChunkEnd}
    (h : runBytes bs pf = (pf', fs, e)) (hi : PfInv pf) : PfInv pf' :=
  runBytes_induct (P := PfInv) (fun _ _ _ _ hd hp => (decByte_pfInv hd hp).1) h hi

/-- How a loop ends under the invariant: never on a slot without value, on an overrun only wedged,
on a desync empty. -/
theorem runBytes_end {bs : List Byte} {pf pf' : PartialFrame} {fs : List Frame} {e : ChunkEnd}
    (h : runBytes bs pf = (pf', fs, e)) (hi : PfInv pf) :
    (∀ i, e ≠ .noValue i) ∧ (e = .overrun → isWedged pf' = true) ∧ (e = .desync → pf' = .empty) := by
  induction bs generalizing pf fs with
  | nil => cases h; simp
  | cons x xs ih =>
    rcases hd : decByte x pf with ⟨p1, r⟩
    have h1 := decByte_pfInv hd hi
    cases r with
    | proceed => rw [runBytes_proceed hd] at h; exact ih h h1.1
    | emit f =>
      rw [runBytes_emit hd] at h
      rcases hr : runBytes xs p1 with ⟨p2, g, e2⟩
      rw [hr] at h
      cases h
      exact ih hr h1.1
    | desync =>
      simp only [runBytes, hd] at h
      cases h
      exact ⟨by simp, by simp, fun _ => decByte_desync_empty hd⟩
    | overrun =>
      simp only [runBytes, hd] at h
      cases h
      obtain ⟨hp, hw⟩ := decByte_overrun_wedged hd hi
      exact ⟨by simp, fun _ => hp ▸ hw, by simp⟩
    | noValue i => exact absurd rfl (h1.2 i)

/-- Every frame of a chunk is whole (R163). -/
theorem runBytes_whole {bs : List Byte} {pf pf' : PartialFrame} {fs : List Frame} {e : ChunkEnd}
    (h : runBytes bs pf = (pf', fs, e)) : ∀ f ∈ fs, f.whole = true := by
  induction bs generalizing pf fs with
  | nil => cases h; simp
  | cons x xs ih =>
    rcases hd : decByte x pf with ⟨p1, r⟩
    cases r with
    | proceed => rw [runBytes_proceed hd] at h; exact ih h
    | emit f =>
      rw [runBytes_emit hd] at h
      rcases hr : runBytes xs p1 with ⟨p2, g, e2⟩
      rw [hr] at h
      cases h
      simp only [List.mem_cons, forall_eq_or_imp]
      exact ⟨(decByte_emit hd).1, ih hr⟩
    | desync => simp only [runBytes, hd] at h; cases h; simp
    | overrun => simp only [runBytes, hd] at h; cases h; simp
    | noValue i => simp only [runBytes, hd] at h; cases h; simp

/-! ## The bytes of a whole frame -/

/-- The payload bytes still missing are taken, the frame is emitted, and the loop goes on with an
empty DEC (R156 to R159). -/
theorem runBytes_payload (bs done : List Byte) {pf : PartialFrame} (rest : List Byte)
    (h4 : 4 ≤ pf.bytesConsumed) (hp : pf.payload = slotsFrom 0 done)
    (hl : done.length = pf.bytesConsumed - 4) (hne : bs ≠ [])
    (hlen : done.length + bs.length = pf.length.toNat) :
    runBytes (bs ++ rest) pf =
      ((runBytes rest .empty).1,
        { ftype := pf.ftype, length := pf.length, payload := done ++ bs } ::
          (runBytes rest .empty).2.1,
        (runBytes rest .empty).2.2) := by
  induction bs generalizing done pf with
  | nil => exact absurd rfl hne
  | cons b bs ih =>
    simp only [List.length_cons] at hlen
    rw [List.cons_append]
    cases bs with
    | nil =>
      rw [runBytes_emit (decByte_last b done h4 hp hl (by simp at hlen; omega))]
      simp
    | cons c cs =>
      simp only [List.length_cons] at hlen
      rw [runBytes_proceed (decByte_fill b h4 (by omega))]
      have hw : payWrite (slotsFrom 0 done) (pf.bytesConsumed - 4) b =
          slotsFrom 0 (done ++ [b]) := by
        rw [← slotsFrom_append, ← hl, Nat.zero_add]
      rw [ih (done ++ [b]) (by simp only; omega) (by simp only [hp, hw])
        (by simp only [List.length_append, List.length_singleton]; omega) (by simp)
        (by simp only [List.length_append, List.length_cons, List.length_nil]; omega)]
      simp

/-- The header of a frame takes an empty DEC to state 4 (R152 to R155). -/
theorem runBytes_header (code : Byte) (p rest : List Byte) :
    runBytes (frameBytes code p ++ rest) .empty =
      runBytes (p ++ rest)
        { bytesConsumed := 4, ftype := code, length := BitVec.ofNat 16 p.length, payload := [] } := by
  simp only [frameBytes, List.cons_append]
  rw [runBytes_proceed (decByte_magic _ rfl rfl), runBytes_proceed (decByte_type _ rfl),
    runBytes_proceed (decByte_lengthHi _ rfl), runBytes_proceed (decByte_lengthLo _ rfl)]
  congr 2
  exact be16_hi_lo _

/-- A whole frame with a payload is emitted and leaves DEC empty (R134 (c)). -/
theorem runBytes_frame (code : Byte) (p rest : List Byte) (hne : p ≠ [])
    (h : p.length ≤ Config.maxPayload) :
    runBytes (frameBytes code p ++ rest) .empty =
      ((runBytes rest .empty).1,
        { ftype := code, length := BitVec.ofNat 16 p.length, payload := p } ::
          (runBytes rest .empty).2.1,
        (runBytes rest .empty).2.2) := by
  rw [runBytes_header, runBytes_payload p [] rest (Nat.le_refl 4) rfl rfl hne]
  · rfl
  · simp only [length_field_toNat h, List.length_nil, Nat.zero_add]

end Sys2Proof.Machine
end

