-- ==== Sys2Proof/Laws/State.lean ====
section
/-! SUPPORT. One lemma per field per update of `State`, each true by `rfl`, so that no proof unfolds
a record update; and how updates of the same and of different fields combine. -/

namespace Sys2Proof.Machine

variable (s : State)

@[simp] theorem State.setPf_pf (p : PartialFrame) : (s.setPf p).pf = p := rfl
@[simp] theorem State.setPf_decFault (p : PartialFrame) : (s.setPf p).decFault = s.decFault := rfl
@[simp] theorem State.setPf_decClosed (p : PartialFrame) : (s.setPf p).decClosed = s.decClosed := rfl
@[simp] theorem State.setPf_decDrop (p : PartialFrame) : (s.setPf p).decDrop = s.decDrop := rfl
@[simp] theorem State.setPf_lock (p : PartialFrame) : (s.setPf p).lock = s.lock := rfl
@[simp] theorem State.setPf_rxq (p : PartialFrame) : (s.setPf p).rxq = s.rxq := rfl
@[simp] theorem State.setPf_writeAnswer (p : PartialFrame) : (s.setPf p).writeAnswer = s.writeAnswer := rfl
@[simp] theorem State.setPf_todo (p : PartialFrame) : (s.setPf p).todo = s.todo := rfl
@[simp] theorem State.setPf_events (p : PartialFrame) : (s.setPf p).events = s.events := rfl
@[simp] theorem State.setPf_written (p : PartialFrame) : (s.setPf p).written = s.written := rfl
@[simp] theorem State.setPf_results (p : PartialFrame) : (s.setPf p).results = s.results := rfl

@[simp] theorem State.setFault_pf (b : Bool) : (s.setFault b).pf = s.pf := rfl
@[simp] theorem State.setFault_decFault (b : Bool) : (s.setFault b).decFault = b := rfl
@[simp] theorem State.setFault_decClosed (b : Bool) : (s.setFault b).decClosed = s.decClosed := rfl
@[simp] theorem State.setFault_decDrop (b : Bool) : (s.setFault b).decDrop = s.decDrop := rfl
@[simp] theorem State.setFault_lock (b : Bool) : (s.setFault b).lock = s.lock := rfl
@[simp] theorem State.setFault_rxq (b : Bool) : (s.setFault b).rxq = s.rxq := rfl
@[simp] theorem State.setFault_writeAnswer (b : Bool) : (s.setFault b).writeAnswer = s.writeAnswer := rfl
@[simp] theorem State.setFault_todo (b : Bool) : (s.setFault b).todo = s.todo := rfl
@[simp] theorem State.setFault_events (b : Bool) : (s.setFault b).events = s.events := rfl
@[simp] theorem State.setFault_written (b : Bool) : (s.setFault b).written = s.written := rfl
@[simp] theorem State.setFault_results (b : Bool) : (s.setFault b).results = s.results := rfl

@[simp] theorem State.setClosed_pf (b : Bool) : (s.setClosed b).pf = s.pf := rfl
@[simp] theorem State.setClosed_decFault (b : Bool) : (s.setClosed b).decFault = s.decFault := rfl
@[simp] theorem State.setClosed_decClosed (b : Bool) : (s.setClosed b).decClosed = b := rfl
@[simp] theorem State.setClosed_decDrop (b : Bool) : (s.setClosed b).decDrop = s.decDrop := rfl
@[simp] theorem State.setClosed_lock (b : Bool) : (s.setClosed b).lock = s.lock := rfl
@[simp] theorem State.setClosed_rxq (b : Bool) : (s.setClosed b).rxq = s.rxq := rfl
@[simp] theorem State.setClosed_writeAnswer (b : Bool) : (s.setClosed b).writeAnswer = s.writeAnswer := rfl
@[simp] theorem State.setClosed_todo (b : Bool) : (s.setClosed b).todo = s.todo := rfl
@[simp] theorem State.setClosed_events (b : Bool) : (s.setClosed b).events = s.events := rfl
@[simp] theorem State.setClosed_written (b : Bool) : (s.setClosed b).written = s.written := rfl
@[simp] theorem State.setClosed_results (b : Bool) : (s.setClosed b).results = s.results := rfl

@[simp] theorem State.setDrop_pf (b : Bool) : (s.setDrop b).pf = s.pf := rfl
@[simp] theorem State.setDrop_decFault (b : Bool) : (s.setDrop b).decFault = s.decFault := rfl
@[simp] theorem State.setDrop_decClosed (b : Bool) : (s.setDrop b).decClosed = s.decClosed := rfl
@[simp] theorem State.setDrop_decDrop (b : Bool) : (s.setDrop b).decDrop = b := rfl
@[simp] theorem State.setDrop_lock (b : Bool) : (s.setDrop b).lock = s.lock := rfl
@[simp] theorem State.setDrop_rxq (b : Bool) : (s.setDrop b).rxq = s.rxq := rfl
@[simp] theorem State.setDrop_writeAnswer (b : Bool) : (s.setDrop b).writeAnswer = s.writeAnswer := rfl
@[simp] theorem State.setDrop_todo (b : Bool) : (s.setDrop b).todo = s.todo := rfl
@[simp] theorem State.setDrop_events (b : Bool) : (s.setDrop b).events = s.events := rfl
@[simp] theorem State.setDrop_written (b : Bool) : (s.setDrop b).written = s.written := rfl
@[simp] theorem State.setDrop_results (b : Bool) : (s.setDrop b).results = s.results := rfl

@[simp] theorem State.setLock_pf (l : Lock) : (s.setLock l).pf = s.pf := rfl
@[simp] theorem State.setLock_decFault (l : Lock) : (s.setLock l).decFault = s.decFault := rfl
@[simp] theorem State.setLock_decClosed (l : Lock) : (s.setLock l).decClosed = s.decClosed := rfl
@[simp] theorem State.setLock_decDrop (l : Lock) : (s.setLock l).decDrop = s.decDrop := rfl
@[simp] theorem State.setLock_lock (l : Lock) : (s.setLock l).lock = l := rfl
@[simp] theorem State.setLock_rxq (l : Lock) : (s.setLock l).rxq = s.rxq := rfl
@[simp] theorem State.setLock_writeAnswer (l : Lock) : (s.setLock l).writeAnswer = s.writeAnswer := rfl
@[simp] theorem State.setLock_todo (l : Lock) : (s.setLock l).todo = s.todo := rfl
@[simp] theorem State.setLock_events (l : Lock) : (s.setLock l).events = s.events := rfl
@[simp] theorem State.setLock_written (l : Lock) : (s.setLock l).written = s.written := rfl
@[simp] theorem State.setLock_results (l : Lock) : (s.setLock l).results = s.results := rfl

@[simp] theorem State.setRxq_pf (q : List Byte) : (s.setRxq q).pf = s.pf := rfl
@[simp] theorem State.setRxq_decFault (q : List Byte) : (s.setRxq q).decFault = s.decFault := rfl
@[simp] theorem State.setRxq_decClosed (q : List Byte) : (s.setRxq q).decClosed = s.decClosed := rfl
@[simp] theorem State.setRxq_decDrop (q : List Byte) : (s.setRxq q).decDrop = s.decDrop := rfl
@[simp] theorem State.setRxq_lock (q : List Byte) : (s.setRxq q).lock = s.lock := rfl
@[simp] theorem State.setRxq_rxq (q : List Byte) : (s.setRxq q).rxq = q := rfl
@[simp] theorem State.setRxq_writeAnswer (q : List Byte) : (s.setRxq q).writeAnswer = s.writeAnswer := rfl
@[simp] theorem State.setRxq_todo (q : List Byte) : (s.setRxq q).todo = s.todo := rfl
@[simp] theorem State.setRxq_events (q : List Byte) : (s.setRxq q).events = s.events := rfl
@[simp] theorem State.setRxq_written (q : List Byte) : (s.setRxq q).written = s.written := rfl
@[simp] theorem State.setRxq_results (q : List Byte) : (s.setRxq q).results = s.results := rfl

@[simp] theorem State.setWriteAnswer_pf (a : WriteAnswer) : (s.setWriteAnswer a).pf = s.pf := rfl
@[simp] theorem State.setWriteAnswer_decFault (a : WriteAnswer) : (s.setWriteAnswer a).decFault = s.decFault := rfl
@[simp] theorem State.setWriteAnswer_decClosed (a : WriteAnswer) : (s.setWriteAnswer a).decClosed = s.decClosed := rfl
@[simp] theorem State.setWriteAnswer_decDrop (a : WriteAnswer) : (s.setWriteAnswer a).decDrop = s.decDrop := rfl
@[simp] theorem State.setWriteAnswer_lock (a : WriteAnswer) : (s.setWriteAnswer a).lock = s.lock := rfl
@[simp] theorem State.setWriteAnswer_rxq (a : WriteAnswer) : (s.setWriteAnswer a).rxq = s.rxq := rfl
@[simp] theorem State.setWriteAnswer_writeAnswer (a : WriteAnswer) : (s.setWriteAnswer a).writeAnswer = a := rfl
@[simp] theorem State.setWriteAnswer_todo (a : WriteAnswer) : (s.setWriteAnswer a).todo = s.todo := rfl
@[simp] theorem State.setWriteAnswer_events (a : WriteAnswer) : (s.setWriteAnswer a).events = s.events := rfl
@[simp] theorem State.setWriteAnswer_written (a : WriteAnswer) : (s.setWriteAnswer a).written = s.written := rfl
@[simp] theorem State.setWriteAnswer_results (a : WriteAnswer) : (s.setWriteAnswer a).results = s.results := rfl

@[simp] theorem State.setTodo_pf (t : List Action) : (s.setTodo t).pf = s.pf := rfl
@[simp] theorem State.setTodo_decFault (t : List Action) : (s.setTodo t).decFault = s.decFault := rfl
@[simp] theorem State.setTodo_decClosed (t : List Action) : (s.setTodo t).decClosed = s.decClosed := rfl
@[simp] theorem State.setTodo_decDrop (t : List Action) : (s.setTodo t).decDrop = s.decDrop := rfl
@[simp] theorem State.setTodo_lock (t : List Action) : (s.setTodo t).lock = s.lock := rfl
@[simp] theorem State.setTodo_rxq (t : List Action) : (s.setTodo t).rxq = s.rxq := rfl
@[simp] theorem State.setTodo_writeAnswer (t : List Action) : (s.setTodo t).writeAnswer = s.writeAnswer := rfl
@[simp] theorem State.setTodo_todo (t : List Action) : (s.setTodo t).todo = t := rfl
@[simp] theorem State.setTodo_events (t : List Action) : (s.setTodo t).events = s.events := rfl
@[simp] theorem State.setTodo_written (t : List Action) : (s.setTodo t).written = s.written := rfl
@[simp] theorem State.setTodo_results (t : List Action) : (s.setTodo t).results = s.results := rfl

@[simp] theorem State.addEvents_pf (es : List Event) : (s.addEvents es).pf = s.pf := rfl
@[simp] theorem State.addEvents_decFault (es : List Event) : (s.addEvents es).decFault = s.decFault := rfl
@[simp] theorem State.addEvents_decClosed (es : List Event) : (s.addEvents es).decClosed = s.decClosed := rfl
@[simp] theorem State.addEvents_decDrop (es : List Event) : (s.addEvents es).decDrop = s.decDrop := rfl
@[simp] theorem State.addEvents_lock (es : List Event) : (s.addEvents es).lock = s.lock := rfl
@[simp] theorem State.addEvents_rxq (es : List Event) : (s.addEvents es).rxq = s.rxq := rfl
@[simp] theorem State.addEvents_writeAnswer (es : List Event) : (s.addEvents es).writeAnswer = s.writeAnswer := rfl
@[simp] theorem State.addEvents_todo (es : List Event) : (s.addEvents es).todo = s.todo := rfl
@[simp] theorem State.addEvents_events (es : List Event) : (s.addEvents es).events = s.events ++ es := rfl
@[simp] theorem State.addEvents_written (es : List Event) : (s.addEvents es).written = s.written := rfl
@[simp] theorem State.addEvents_results (es : List Event) : (s.addEvents es).results = s.results := rfl

@[simp] theorem State.addWritten_pf (w : WriteRecord) : (s.addWritten w).pf = s.pf := rfl
@[simp] theorem State.addWritten_decFault (w : WriteRecord) : (s.addWritten w).decFault = s.decFault := rfl
@[simp] theorem State.addWritten_decClosed (w : WriteRecord) : (s.addWritten w).decClosed = s.decClosed := rfl
@[simp] theorem State.addWritten_decDrop (w : WriteRecord) : (s.addWritten w).decDrop = s.decDrop := rfl
@[simp] theorem State.addWritten_lock (w : WriteRecord) : (s.addWritten w).lock = s.lock := rfl
@[simp] theorem State.addWritten_rxq (w : WriteRecord) : (s.addWritten w).rxq = s.rxq := rfl
@[simp] theorem State.addWritten_writeAnswer (w : WriteRecord) : (s.addWritten w).writeAnswer = s.writeAnswer := rfl
@[simp] theorem State.addWritten_todo (w : WriteRecord) : (s.addWritten w).todo = s.todo := rfl
@[simp] theorem State.addWritten_events (w : WriteRecord) : (s.addWritten w).events = s.events := rfl
@[simp] theorem State.addWritten_written (w : WriteRecord) : (s.addWritten w).written = s.written ++ [w] := rfl
@[simp] theorem State.addWritten_results (w : WriteRecord) : (s.addWritten w).results = s.results := rfl

@[simp] theorem State.addResult_pf (r : Result) : (s.addResult r).pf = s.pf := rfl
@[simp] theorem State.addResult_decFault (r : Result) : (s.addResult r).decFault = s.decFault := rfl
@[simp] theorem State.addResult_decClosed (r : Result) : (s.addResult r).decClosed = s.decClosed := rfl
@[simp] theorem State.addResult_decDrop (r : Result) : (s.addResult r).decDrop = s.decDrop := rfl
@[simp] theorem State.addResult_lock (r : Result) : (s.addResult r).lock = s.lock := rfl
@[simp] theorem State.addResult_rxq (r : Result) : (s.addResult r).rxq = s.rxq := rfl
@[simp] theorem State.addResult_writeAnswer (r : Result) : (s.addResult r).writeAnswer = s.writeAnswer := rfl
@[simp] theorem State.addResult_todo (r : Result) : (s.addResult r).todo = s.todo := rfl
@[simp] theorem State.addResult_events (r : Result) : (s.addResult r).events = s.events := rfl
@[simp] theorem State.addResult_written (r : Result) : (s.addResult r).written = s.written := rfl
@[simp] theorem State.addResult_results (r : Result) : (s.addResult r).results = s.results ++ [r] := rfl

/-! The operations of Ops that are one update. -/

@[simp] theorem acquire_eq (l : Lock) : acquire l s = s.setLock l := rfl
@[simp] theorem release_eq : release s = s.setLock .free := rfl
@[simp] theorem takeOverrun_eq : takeOverrun s = s.setFault true := rfl
@[simp] theorem notify_eq (fs : List Frame) : notify fs s = s.addEvents (fs.map dispatch) := rfl
@[simp] theorem discardPendingInput_eq : discardPendingInput s = s.setRxq [] := rfl
@[simp] theorem transportWrite_eq (bs : List Byte) :
    transportWrite bs s = s.addWritten { bytes := bs, answer := s.writeAnswer } := rfl

/-- Two states with equal fields are equal. -/
theorem State.ext_fields {s t : State} (h₁ : s.pf = t.pf) (h₂ : s.decFault = t.decFault)
    (h₃ : s.decClosed = t.decClosed) (h₄ : s.decDrop = t.decDrop) (h₅ : s.lock = t.lock)
    (h₆ : s.rxq = t.rxq) (h₇ : s.writeAnswer = t.writeAnswer) (h₈ : s.todo = t.todo)
    (h₉ : s.events = t.events) (h₁₀ : s.written = t.written) (h₁₁ : s.results = t.results) :
    s = t := by
  cases s
  cases t
  simp_all

end Sys2Proof.Machine
end

