-- ==== Sys2Proof/Laws/Operations.lean ====
section
/-! SUPPORT. One lemma per shared operation that says once everything it can do: a chunk (R150), a
send (R132), a byte of a chunk (R166), an instruction, an action, a step. -/

namespace Sys2Proof.Machine

open Host (Outcome)

/-! ## The lock is taken and given back -/

theorem lock_roundtrip {s : State} (l : Lock) (h : s.lock = .free) :
    (s.setLock l).setLock .free = s := by
  cases s
  simp only [State.setLock] at h ⊢
  subst h
  rfl

/-! ## A chunk -/

/-- A chunk after Close or after the fault is refused, whatever it holds (R171). -/
theorem deliver_refused {s : State} (chunk : List Byte)
    (h : s.decClosed = true ∨ s.decFault = true) :
    deliver chunk s = .next (s.addResult (.error .refused)) := by
  have : (s.decClosed || s.decFault) = true := by simpa using h
  simp [deliver, this]

/-- What a chunk leaves, from how its loop ended (R150). -/
def afterChunk (s : State) : PartialFrame × List Frame × ChunkEnd → Outcome State Fault Refusal
  | (pf, fs, .drained) =>
    .next (((s.setPf pf).addResult (.chunk fs false)).addEvents (fs.map dispatch))
  | (pf, fs, .desync) =>
    .next (((s.setPf pf).addResult (.chunk fs true)).addEvents (fs.map dispatch))
  | (pf, fs, .overrun) =>
    .next ((((s.setPf pf).setFault true).addResult (.overrun fs)).addEvents (fs.map dispatch))
  | (_, _, .noValue i) => .fault (.slotWithoutValue i)

/-- A chunk an open machine takes (R150); the lock is free again at the end. -/
theorem deliver_open {s : State} (chunk : List Byte) (h : Open s) :
    deliver chunk s = afterChunk s (runBytes chunk s.pf) := by
  obtain ⟨pf, f, c, d, l, q, w, t, e, wr, r⟩ := s
  obtain ⟨hc, hf, hl⟩ := h
  simp only at hc hf hl
  subst hc hf hl
  simp only [deliver, Bool.or_self, Bool.false_eq_true, if_false, ne_eq, not_true_eq_false]
  rcases runBytes chunk pf with ⟨p, fs, en⟩
  cases en <;> rfl

/-- Everything a chunk's delivery can do when it answers a next state. -/
theorem deliver_cases {s t : State} {chunk : List Byte} (h : deliver chunk s = .next t) :
    ((s.decClosed = true ∨ s.decFault = true) ∧ t = s.addResult (.error .refused)) ∨
    (s.lock ≠ .free ∧ t = s) ∨
    (Open s ∧ ∃ pf fs,
      (runBytes chunk s.pf = (pf, fs, .drained) ∧
        t = ((s.setPf pf).addResult (.chunk fs false)).addEvents (fs.map dispatch)) ∨
      (runBytes chunk s.pf = (pf, fs, .desync) ∧
        t = ((s.setPf pf).addResult (.chunk fs true)).addEvents (fs.map dispatch)) ∨
      (runBytes chunk s.pf = (pf, fs, .overrun) ∧
        t = (((s.setPf pf).setFault true).addResult (.overrun fs)).addEvents
          (fs.map dispatch))) := by
  by_cases hr : s.decClosed = true ∨ s.decFault = true
  · rw [deliver_refused chunk hr] at h
    cases h
    exact .inl ⟨hr, rfl⟩
  · by_cases hl : s.lock = .free
    · have ho : Open s := ⟨by simp_all, by simp_all, hl⟩
      rw [deliver_open chunk ho] at h
      refine .inr (.inr ⟨ho, ?_⟩)
      rcases hb : runBytes chunk s.pf with ⟨pf, fs, e⟩
      rw [hb] at h
      refine ⟨pf, fs, ?_⟩
      cases e <;> simp only [afterChunk] at h <;> cases h <;> simp
    · have : (s.decClosed || s.decFault) = false := by simp_all
      simp only [deliver, this, Bool.false_eq_true, if_false, ne_eq, hl, not_false_eq_true,
        if_true] at h
      cases h
      exact .inr (.inl ⟨hl, rfl⟩)

/-- Under the invariant a chunk's delivery always answers a next state. -/
theorem deliver_total {s : State} (chunk : List Byte) (h : PfInv s.pf) :
    ∃ t, deliver chunk s = .next t := by
  by_cases hr : s.decClosed = true ∨ s.decFault = true
  · exact ⟨_, deliver_refused chunk hr⟩
  · by_cases hl : s.lock = .free
    · rw [deliver_open chunk ⟨by simp_all, by simp_all, hl⟩]
      rcases hb : runBytes chunk s.pf with ⟨pf, fs, e⟩
      have he := (runBytes_end hb h).1
      cases e with
      | drained => exact ⟨_, rfl⟩
      | desync => exact ⟨_, rfl⟩
      | overrun => exact ⟨_, rfl⟩
      | noValue i => exact absurd rfl (he i)
    · have : (s.decClosed || s.decFault) = false := by simp_all
      exact ⟨s, by simp [deliver, this, hl]⟩

/-! ## A send -/

/-- Everything a send can do (R132, R252 (c)): it always answers a next state. -/
theorem send_cases (cmd : Byte) (args : Option (List Byte)) (s : State) :
    (Config.maxPayload < (argBytes args).length ∧
      send cmd args s = .next (s.addResult (.error .argumentTooLarge))) ∨
    ((argBytes args).length ≤ Config.maxPayload ∧ s.decClosed = true ∧
      send cmd args s = .next (s.addResult (.error .refused))) ∨
    ((argBytes args).length ≤ Config.maxPayload ∧ s.decClosed = false ∧ s.lock ≠ .free ∧
      send cmd args s = .next s) ∨
    ((argBytes args).length ≤ Config.maxPayload ∧ CanSend s ∧
      send cmd args s = .next (s.afterSend cmd (argBytes args))) := by
  rcases Nat.lt_or_ge Config.maxPayload (argBytes args).length with hlt | hle
  · exact .inl ⟨hlt, by simp only [send, encodeArgs, hlt, if_true]⟩
  · have he : encodeArgs cmd args = .ok (frameBytes cmd (argBytes args)) := by
      simp only [encodeArgs, Nat.not_lt.mpr hle, if_false]
    cases hc : s.decClosed
    · by_cases hl : s.lock = .free
      · refine .inr (.inr (.inr ⟨hle, ⟨hc, hl⟩, ?_⟩))
        obtain ⟨pf, f, c, d, l, q, w, t, e, wr, r⟩ := s
        simp only at hc hl
        subst hc hl
        simp only [send, he, Bool.false_eq_true, if_false, ne_eq, not_true_eq_false]
        rfl
      · exact .inr (.inr (.inl ⟨hle, rfl, hl, by simp [send, he, hc, hl]⟩))
    · exact .inr (.inl ⟨hle, rfl, by simp [send, he, hc]⟩)

/-! ## Instructions -/

/-- Every instruction is a send or a delivery of its own bytes, by its direction. -/
theorem exec_eq (i : Instr) (s : State) :
    exec i s =
      match i.dir with
      | .outbound => send i.ftype (some i.payload) s
      | .inbound => receive i.ftype i.payload s := by
  cases i <;> rename_i d _ <;> cases d <;> rfl

theorem exec_outbound {i : Instr} (s : State) (h : i.dir = .outbound) :
    exec i s = send i.ftype (some i.payload) s := by
  rw [exec_eq, h]

theorem exec_inbound {i : Instr} (s : State) (h : i.dir = .inbound)
    (hp : i.payload.length ≤ Config.maxPayload) : exec i s = deliver (encode i) s := by
  rw [exec_eq, h]
  simp only [receive, Nat.not_lt.mpr hp, if_false, encode]

/-- A well-formed instruction's payload fits (R80). -/
theorem wellFormed_payload {i : Instr} (h : i.wellFormed = true) :
    i.payload.length ≤ Config.maxPayload := by
  cases i <;>
    simp only [Instr.wellFormed, fitsPayload, fitsArgument, Bool.and_eq_true,
      decide_eq_true_eq, Instr.payload, List.length_cons] at h ⊢ <;> omega

/-- A chunk that is exactly one frame, and what it decodes to. -/
theorem decodeExact_some {d : Dir} {bs : List Byte} {i : Instr} (h : decodeExact d bs = some i) :
    i.dir = d ∧ encode i = bs ∧ i.payload.length ≤ Config.maxPayload := by
  unfold decodeExact at h
  split at h
  · rename_i i' hd
    cases h
    unfold decode decodeFrame at hd
    rcases hs : splitFrame bs with e | ⟨t, p, rest⟩
    · rw [hs] at hd; cases hd
    · rw [hs] at hd
      cases hd
      obtain ⟨hl, hb⟩ := splitFrame_ok hs
      obtain ⟨r1, r2, r3⟩ := refine_fields (frameInstr d t p)
      obtain ⟨f1, f2, f3⟩ := frameInstr_fields d t p
      refine ⟨by rw [r1, f1], ?_, by rw [r2, f2]; exact hl⟩
      rw [encode, r2, r3, f2, f3]
      simpa using hb
  · cases h

/-- The fetch of a one-frame chunk changes nothing: every chunk is processed by R150. -/
theorem runChunk_eq_deliver (chunk : List Byte) (s : State) : runChunk chunk s = deliver chunk s := by
  unfold runChunk
  split
  · rename_i i h
    obtain ⟨hd, he, hp⟩ := decodeExact_some h
    rw [exec_inbound s hd hp, he]
  · rfl

/-- The instruction of a send carries the command and the argument (R110). -/
theorem sendInstr_fields (cmd : Byte) (args : Option (List Byte)) :
    (sendInstr cmd args).dir = .outbound ∧ (sendInstr cmd args).ftype = cmd ∧
      (sendInstr cmd args).payload = argBytes args := by
  obtain ⟨r1, r2, r3⟩ := refine_fields (frameInstr .outbound cmd (argBytes args))
  obtain ⟨f1, f2, f3⟩ := frameInstr_fields .outbound cmd (argBytes args)
  exact ⟨by rw [sendInstr, r1, f1], by rw [sendInstr, r3, f3], by rw [sendInstr, r2, f2]⟩

/-- `SEND cmd args` is `Send(cmd, args)`, an absent argument being an empty one (R120 (a)). -/
theorem exec_sendInstr (cmd : Byte) (args : Option (List Byte)) (s : State) :
    exec (sendInstr cmd args) s = send cmd args s := by
  obtain ⟨h1, h2, h3⟩ := sendInstr_fields cmd args
  rw [exec_outbound s h1, h2, h3]
  cases args <;> rfl

/-! ## A byte of a chunk -/

/-- What the end of a byte's transfer does: the drop bit and the lock only. -/
theorem endTransfer_cases (last : Bool) (s : State) :
    (last = false ∧ endTransfer last s = s) ∨
    (last = true ∧ s.lock = .rx ∧ endTransfer last s = (s.setDrop false).setLock .free) ∨
    (last = true ∧ s.lock ≠ .rx ∧ endTransfer last s = s.setDrop false) := by
  cases last
  · exact .inl ⟨rfl, rfl⟩
  · cases h : s.lock <;> simp [endTransfer, h]

/-- Everything a byte of a chunk can do when it answers a next state (R166). -/
theorem byteIn_cases {b : Byte} {last : Bool} {s t : State} (h : byteIn b last s = .next t) :
    ((s.decClosed = true ∨ s.decFault = true) ∧ t = endTransfer last s) ∨
    (s.lock = .tx ∧ t = s) ∨
    (s.decClosed = false ∧ s.decFault = false ∧ s.lock ≠ .tx ∧ s.decDrop = true ∧
      t = endTransfer last (s.setLock .rx)) ∨
    (s.decClosed = false ∧ s.decFault = false ∧ s.lock ≠ .tx ∧ s.decDrop = false ∧ ∃ pf,
      (decByte b s.pf = (pf, .proceed) ∧ t = endTransfer last ((s.setLock .rx).setPf pf)) ∨
      (∃ f, decByte b s.pf = (pf, .emit f) ∧
        t = endTransfer last ((((s.setLock .rx).setPf pf).addResult (.chunk [f] false)).addEvents
          [dispatch f])) ∨
      (decByte b s.pf = (pf, .desync) ∧
        t = endTransfer last ((((s.setLock .rx).setPf pf).setDrop true).addResult
          (.chunk [] true))) ∨
      (decByte b s.pf = (pf, .overrun) ∧
        t = endTransfer last ((((s.setLock .rx).setPf pf).setFault true).addResult
          (.overrun [])))) := by
  unfold byteIn at h
  split at h
  · rename_i hr
    cases h
    exact .inl ⟨by simpa using hr, rfl⟩
  · rename_i hr
    simp only [Bool.or_eq_true, not_or, Bool.not_eq_true] at hr
    split at h
    · rename_i hl
      cases h
      exact .inr (.inl ⟨hl, rfl⟩)
    · rename_i hl
      split at h
      · rename_i hd
        cases h
        exact .inr (.inr (.inl ⟨hr.1, hr.2, hl, hd, rfl⟩))
      · rename_i hd
        refine .inr (.inr (.inr ⟨hr.1, hr.2, hl, by simpa using hd, ?_⟩))
        rcases hb : decByte b s.pf with ⟨pf, r⟩
        rw [hb] at h
        refine ⟨pf, ?_⟩
        cases r with
        | proceed => cases h; exact .inl ⟨rfl, rfl⟩
        | emit f => cases h; exact .inr (.inl ⟨f, rfl, rfl⟩)
        | desync => cases h; exact .inr (.inr (.inl ⟨rfl, rfl⟩))
        | overrun => cases h; exact .inr (.inr (.inr ⟨rfl, rfl⟩))
        | noValue i => cases h

/-! ## A step -/

/-- The action a step takes has a step (R62). -/
theorem takeReady_ready {s : State} {l rest : List Action} {a : Action}
    (h : takeReady s l = some (a, rest)) : ready s a = true := by
  induction l generalizing rest with
  | nil => cases h
  | cons x xs ih =>
    simp only [takeReady] at h
    split at h
    · cases h; assumption
    · rcases hx : takeReady s xs with _ | ⟨b, r⟩
      · rw [hx] at h; cases h
      · rw [hx] at h; cases h; exact ih hx

/-- With its first action ready, a step takes it. -/
theorem step_first {s : State} {a : Action} {rest : List Action} (h : s.todo = a :: rest)
    (hr : ready s a = true) : step s = perform a (s.setTodo rest) := by
  simp [step, h, takeReady, hr]

/-- A step takes the first ready action, or idles. -/
theorem step_cases {s t : State} (h : step s = .next t) :
    (takeReady s s.todo = none ∧ t = s) ∨
    (∃ a rest, takeReady s s.todo = some (a, rest) ∧ perform a (s.setTodo rest) = .next t) := by
  unfold step at h
  rcases ht : takeReady s s.todo with _ | ⟨a, rest⟩
  · rw [ht] at h; cases h; exact .inl ⟨rfl, rfl⟩
  · rw [ht] at h; exact .inr ⟨a, rest, rfl, h⟩

/-- A run goes on from the state its first step answers. -/
theorem runSteps_next {s t : State} (n : Nat) (h : step s = .next t) :
    runSteps (n + 1) s = runSteps n t := by
  simp only [runSteps, h]

/-- A run that answers a next state has a first step that does. -/
theorem runSteps_first {s u : State} {n : Nat} (h : runSteps (n + 1) s = .next u) :
    ∃ t, step s = .next t ∧ runSteps n t = .next u := by
  simp only [runSteps] at h
  split at h
  · rename_i t ht; exact ⟨t, ht, h⟩
  · cases h
  · cases h

/-- Everything one action can do when it answers a next state: the operations behind it. -/
theorem perform_cases {a : Action} {s t : State} (h : perform a s = .next t) :
    (∃ chunk, a = .rx chunk ∧ deliver chunk s = .next t) ∨
    (∃ b last, a = .byteIn b last ∧ byteIn b last s = .next t) ∨
    (∃ n, a = .onBytes n ∧ (t = s ∨ deliver (s.rxq.take n) (s.setRxq (s.rxq.drop n)) = .next t)) ∨
    (∃ cmd args, (a = .send cmd args ∨ ∃ c, a = .call c ∧ expandCall c = (cmd, args)) ∧
      send cmd args s = .next t) ∨
    (∃ q, (∃ bs, a = .arrive bs) ∧ t = s.setRxq q) ∨
    (∃ w, a = .writeAnswers w ∧ t = s.setWriteAnswer w) ∨
    (a = .close ∧ close s = .next t) ∨
    (a = .reset ∧ reset s = .next t) ∨
    (∃ r, Result.frames r = [] ∧ t = s.addResult r ∧ a ≠ .close ∧ a ≠ .reset) := by
  have pure_result {r : Result} (hr : Result.frames r = []) (hc : a ≠ .close) (hz : a ≠ .reset)
      (ht : Outcome.next (s.addResult r) = (.next t : Outcome State Fault Refusal)) :
      ∃ r, Result.frames r = [] ∧ t = s.addResult r ∧ a ≠ .close ∧ a ≠ .reset := by
    cases ht; exact ⟨r, hr, rfl, hc, hz⟩
  cases a with
  | rx chunk => exact .inl ⟨chunk, rfl, by rw [← runChunk_eq_deliver]; exact h⟩
  | byteIn b last => exact .inr (.inl ⟨b, last, rfl, h⟩)
  | onBytes n =>
    refine .inr (.inr (.inl ⟨n, rfl, ?_⟩))
    simp only [perform, onBytes] at h
    split at h
    · cases h; exact .inl rfl
    · rename_i b bs hq
      split at h
      · rw [runChunk_eq_deliver, ← hq] at h; exact .inr h
      · cases h; exact .inl rfl
  | send cmd args =>
    exact .inr (.inr (.inr (.inl ⟨cmd, args, .inl rfl, by rw [← exec_sendInstr]; exact h⟩)))
  | call c =>
    exact .inr (.inr (.inr (.inl ⟨_, _, .inr ⟨c, rfl, rfl⟩, by rw [← exec_sendInstr]; exact h⟩)))
  | arrive bs => cases h; exact .inr (.inr (.inr (.inr (.inl ⟨_, ⟨bs, rfl⟩, rfl⟩))))
  | writeAnswers w => cases h; exact .inr (.inr (.inr (.inr (.inr (.inl ⟨w, rfl, rfl⟩)))))
  | close => exact .inr (.inr (.inr (.inr (.inr (.inr (.inl ⟨rfl, h⟩))))))
  | reset => exact .inr (.inr (.inr (.inr (.inr (.inr (.inr (.inl ⟨rfl, h⟩)))))))
  | encode cmd args =>
    refine .inr (.inr (.inr (.inr (.inr (.inr (.inr (.inr (pure_result ?_ (by simp) (by simp) h))))))))
    cases encodeArgs cmd args <;> rfl
  | encodeCmd c args =>
    refine .inr (.inr (.inr (.inr (.inr (.inr (.inr (.inr (pure_result ?_ (by simp) (by simp) h))))))))
    cases encodeCmd c args <;> rfl
  | dispatch f =>
    exact .inr (.inr (.inr (.inr (.inr (.inr (.inr (.inr (pure_result rfl (by simp) (by simp) h))))))))
  | encodeDateTimeForWrite dt w =>
    exact .inr (.inr (.inr (.inr (.inr (.inr (.inr (.inr (pure_result rfl (by simp) (by simp) h))))))))
  | decodeDateTime bs =>
    refine .inr (.inr (.inr (.inr (.inr (.inr (.inr (.inr (pure_result ?_ (by simp) (by simp) h))))))))
    cases decodeDateTime bs <;> rfl
  | decodeU32BE bs =>
    refine .inr (.inr (.inr (.inr (.inr (.inr (.inr (.inr (pure_result ?_ (by simp) (by simp) h))))))))
    cases decodeU32BE bs <;> rfl
  | timeout =>
    exact .inr (.inr (.inr (.inr (.inr (.inr (.inr (.inr (pure_result rfl (by simp) (by simp) h))))))))

end Sys2Proof.Machine
end

