-- ==== Sys2Proof/Laws/PerInstr.lean ====
section
/-! SUPPORT. For every instruction, what its words look like (`30_encoding.md` R80, R81, R86): the
magic, the type byte, 4 to 65539 bytes in all, and for a sub-format at least five. -/

namespace Sys2Proof.Laws.Wire

open Sys2Proof Sys2Proof.Machine

/-- The words of a well-formed instruction begin with the magic and its type byte, are the header
and the payload, at most 65539 bytes (R81), and a sub-format has its `original` byte (R86). -/
def Statement (i : Instr) : Prop :=
  i.wellFormed = true →
    (encode i).take 2 = [0x2A#8, i.ftype] ∧
    (encode i).length = 4 + i.payload.length ∧ (encode i).length ≤ 65539 ∧
    (i.isSubFormat = true → 5 ≤ (encode i).length)

/-- A sub-format has a payload (R86). -/
theorem payload_of_subFormat {i : Instr} (h : i.isSubFormat = true) : 1 ≤ i.payload.length := by
  cases i <;> first
    | exact absurd h Bool.false_ne_true
    | exact Nat.succ_le_succ (Nat.zero_le _)

/-- The statement holds of every instruction. -/
theorem statement (i : Instr) : Statement i := by
  intro h
  have hp := wellFormed_payload h
  have hl : (encode i).length = 4 + i.payload.length := frameBytes_length _ _
  simp only [Config.maxPayload] at hp
  exact ⟨rfl, hl, by omega, fun hs => by have := payload_of_subFormat hs; omega⟩

theorem ack (d : Dir) (p : List Byte) : Statement (.ack d p) := statement _
theorem nack (d : Dir) (p : List Byte) : Statement (.nack d p) := statement _
theorem readConfiguration (d : Dir) (p : List Byte) : Statement (.readConfiguration d p) := statement _
theorem writeConfiguration (d : Dir) (p : List Byte) : Statement (.writeConfiguration d p) := statement _
theorem readDateTime (d : Dir) (p : List Byte) : Statement (.readDateTime d p) := statement _
theorem writeDateTime (d : Dir) (p : List Byte) : Statement (.writeDateTime d p) := statement _
theorem readBatteryStatus (d : Dir) (p : List Byte) : Statement (.readBatteryStatus d p) := statement _
theorem showYourself (d : Dir) (p : List Byte) : Statement (.showYourself d p) := statement _
theorem stopSendData (d : Dir) (p : List Byte) : Statement (.stopSendData d p) := statement _
theorem startSendData (d : Dir) (p : List Byte) : Statement (.startSendData d p) := statement _
theorem stopSendLog (d : Dir) (p : List Byte) : Statement (.stopSendLog d p) := statement _
theorem startSendLog (d : Dir) (p : List Byte) : Statement (.startSendLog d p) := statement _
theorem getData (d : Dir) (p : List Byte) : Statement (.getData d p) := statement _
theorem sendData (d : Dir) (p : List Byte) : Statement (.sendData d p) := statement _
theorem sendLog (d : Dir) (p : List Byte) : Statement (.sendLog d p) := statement _
theorem unknown (d : Dir) (t : Byte) (p : List Byte) : Statement (.unknown d t p) := statement _
theorem ackReadConfiguration (d : Dir) (a : List Byte) : Statement (.ackReadConfiguration d a) := statement _
theorem ackWriteConfiguration (d : Dir) (a : List Byte) : Statement (.ackWriteConfiguration d a) := statement _
theorem ackReadDateTime (d : Dir) (a : List Byte) : Statement (.ackReadDateTime d a) := statement _
theorem ackWriteDateTime (d : Dir) (a : List Byte) : Statement (.ackWriteDateTime d a) := statement _
theorem ackReadBatteryStatus (d : Dir) (a : List Byte) : Statement (.ackReadBatteryStatus d a) := statement _
theorem ackOther (d : Dir) (o : Byte) (a : List Byte) : Statement (.ackOther d o a) := statement _
theorem nackAny (d : Dir) (o : Byte) (a : List Byte) : Statement (.nackAny d o a) := statement _

end Sys2Proof.Laws.Wire
end

