-- ==== Sys2Proof/Laws/Runs.lean ====
section
/-! SUPPORT. What a run has produced (`State.emitted`) under each update of a field, and what the end
of a byte's transfer leaves as it was. -/

namespace Sys2Proof.Machine

variable (s : State)

/-! ## The frames a result reports -/

@[simp] theorem Result.frames_error (k : ErrorKind) : Result.frames (.error k) = [] := rfl
@[simp] theorem Result.frames_chunk (fs : List Frame) (d : Bool) : Result.frames (.chunk fs d) = fs := rfl
@[simp] theorem Result.frames_overrun (fs : List Frame) : Result.frames (.overrun fs) = fs := rfl
@[simp] theorem Result.frames_sendResult (a : WriteAnswer) : (sendResult a).frames = [] := by
  cases a <;> rfl

/-! ## Emitted frames -/
@[simp] theorem State.setPf_emitted (p : PartialFrame) : (s.setPf p).emitted = s.emitted := rfl
@[simp] theorem State.setFault_emitted (b : Bool) : (s.setFault b).emitted = s.emitted := rfl
@[simp] theorem State.setClosed_emitted (b : Bool) : (s.setClosed b).emitted = s.emitted := rfl
@[simp] theorem State.setDrop_emitted (b : Bool) : (s.setDrop b).emitted = s.emitted := rfl
@[simp] theorem State.setLock_emitted (l : Lock) : (s.setLock l).emitted = s.emitted := rfl
@[simp] theorem State.setRxq_emitted (q : List Byte) : (s.setRxq q).emitted = s.emitted := rfl
@[simp] theorem State.setWriteAnswer_emitted (a : WriteAnswer) : (s.setWriteAnswer a).emitted = s.emitted := rfl
@[simp] theorem State.setTodo_emitted (l : List Action) : (s.setTodo l).emitted = s.emitted := rfl
@[simp] theorem State.addEvents_emitted (es : List Event) : (s.addEvents es).emitted = s.emitted := rfl
@[simp] theorem State.addWritten_emitted (w : WriteRecord) : (s.addWritten w).emitted = s.emitted := rfl
@[simp] theorem State.addResult_emitted (r : Result) :
    (s.addResult r).emitted = s.emitted ++ r.frames := by
  simp [State.emitted, List.flatMap_append]

/-! ## The end of a byte's transfer -/

/-- All but the drop bit and the lock is as it was (R166). -/
theorem endTransfer_frame (last : Bool) :
    (endTransfer last s).pf = s.pf ∧ (endTransfer last s).decFault = s.decFault ∧
    (endTransfer last s).decClosed = s.decClosed ∧ (endTransfer last s).rxq = s.rxq ∧
    (endTransfer last s).writeAnswer = s.writeAnswer ∧ (endTransfer last s).todo = s.todo ∧
    (endTransfer last s).events = s.events ∧ (endTransfer last s).written = s.written ∧
    (endTransfer last s).results = s.results ∧ (endTransfer last s).emitted = s.emitted := by
  rcases endTransfer_cases last s with ⟨_, e⟩ | ⟨_, _, e⟩ | ⟨_, _, e⟩ <;> rw [e] <;> simp

@[simp] theorem endTransfer_pf (last : Bool) : (endTransfer last s).pf = s.pf :=
  (endTransfer_frame s last).1
@[simp] theorem endTransfer_decFault (last : Bool) : (endTransfer last s).decFault = s.decFault :=
  (endTransfer_frame s last).2.1
@[simp] theorem endTransfer_decClosed (last : Bool) : (endTransfer last s).decClosed = s.decClosed :=
  (endTransfer_frame s last).2.2.1
@[simp] theorem endTransfer_rxq (last : Bool) : (endTransfer last s).rxq = s.rxq :=
  (endTransfer_frame s last).2.2.2.1
@[simp] theorem endTransfer_writeAnswer (last : Bool) : (endTransfer last s).writeAnswer = s.writeAnswer :=
  (endTransfer_frame s last).2.2.2.2.1
@[simp] theorem endTransfer_todo (last : Bool) : (endTransfer last s).todo = s.todo :=
  (endTransfer_frame s last).2.2.2.2.2.1
@[simp] theorem endTransfer_events (last : Bool) : (endTransfer last s).events = s.events :=
  (endTransfer_frame s last).2.2.2.2.2.2.1
@[simp] theorem endTransfer_written (last : Bool) : (endTransfer last s).written = s.written :=
  (endTransfer_frame s last).2.2.2.2.2.2.2.1
@[simp] theorem endTransfer_results (last : Bool) : (endTransfer last s).results = s.results :=
  (endTransfer_frame s last).2.2.2.2.2.2.2.2.1
@[simp] theorem endTransfer_emitted (last : Bool) : (endTransfer last s).emitted = s.emitted :=
  (endTransfer_frame s last).2.2.2.2.2.2.2.2.2

/-- Between two bytes of a chunk nothing ends. -/
@[simp] theorem endTransfer_false : endTransfer false s = s := rfl

/-- The last byte of a chunk clears the drop bit (R166). -/
@[simp] theorem endTransfer_true_decDrop : (endTransfer true s).decDrop = false := by
  rcases endTransfer_cases true s with ⟨h, _⟩ | ⟨_, _, e⟩ | ⟨_, _, e⟩
  · cases h
  · rw [e]; rfl
  · rw [e]; rfl

/-- The last byte of a chunk gives the exclusive access back (R166). -/
theorem endTransfer_true_lock (h : s.lock ≠ .tx) : (endTransfer true s).lock = .free := by
  rcases endTransfer_cases true s with ⟨h', _⟩ | ⟨_, _, e⟩ | ⟨_, hl, e⟩
  · cases h'
  · rw [e]; rfl
  · rw [e]
    cases hs : s.lock
    · exact hs
    · exact absurd hs hl
    · exact absurd hs h

end Sys2Proof.Machine
end

