-- ==== Sys2Proof/Tests/Slice0.lean ====
section
/-! SUPPORT. The tests: the well-formedness checks, the decoding of every row's bytes written out from
`30_encoding.md`, vectors of `95_test_vectors.md`, each one step, and for every obligation with
hypotheses a witness that meets them. -/

namespace Sys2Proof.Tests.Slice0

open Sys2Proof Sys2Proof.Machine
open Host (Outcome)

/-! ## Helpers -/

/-- The events after a step, if it answers a next state. -/
def eventsOf : Outcome State Fault Refusal → Option (List Event)
  | .next t => some t.events
  | _ => none

/-- The bytes handed to `write` after a step. -/
def writtenOf : Outcome State Fault Refusal → Option (List (List Byte))
  | .next t => some (t.written.map WriteRecord.bytes)
  | _ => none

/-- The frames emitted after a step. -/
def emittedOf : Outcome State Fault Refusal → Option (List Frame)
  | .next t => some t.emitted
  | _ => none

/-- The PartialFrame after a step. -/
def pfOf : Outcome State Fault Refusal → Option PartialFrame
  | .next t => some t.pf
  | _ => none

/-- The results after a step. -/
def resultsOf : Outcome State Fault Refusal → Option (List Result)
  | .next t => some t.results
  | _ => none

/-- The reset state with one action to do. -/
def fresh (a : Action) : State := State.reset.setTodo [a]

/-- The reset state with a PartialFrame and one action to do. -/
def midFrame (p : PartialFrame) (a : Action) : State := (State.reset.setPf p).setTodo [a]

/-- `n` zero bytes. -/
def zeros (n : Nat) : List Byte := List.replicate n 0x00#8

@[simp] theorem zeros_length (n : Nat) : (zeros n).length = n := List.length_replicate

/-- `bc=6 ftype=32 length=4 slots=[AA BB]` (V-D20, V-D21, P5). -/
def twoOfFour : PartialFrame :=
  { bytesConsumed := 6, ftype := 0x32#8, length := 0x0004#16, payload := [(0, 0xAA#8), (1, 0xBB#8)] }

/-- V-D8's end state. -/
def wedged : PartialFrame :=
  { bytesConsumed := 4, ftype := 0x04#8, length := 0x0000#16, payload := [] }

/-- 2024-03-15 12:30:45 (V-C1). -/
def someDate : DateTimeValue :=
  { year := 2024#16, month := 3#8, day := 15#8, hour := 12#8, minute := 30#8, second := 45#8 }

/-! ## Well-formedness: each check refuses something (R80, R84, R107) -/

theorem test_wellFormed_payload_too_long :
    (Instr.sendData .inbound (zeros 65536)).wellFormed = false := by
  simp [Instr.wellFormed, fitsPayload]

theorem test_wellFormed_longest_payload :
    (Instr.sendData .inbound (zeros 65535)).wellFormed = true := by
  simp [Instr.wellFormed, fitsPayload]

theorem test_wellFormed_unknown_with_a_code :
    (Instr.unknown .inbound 0x33#8 []).wellFormed = false ∧
    (Instr.unknown .inbound 0x00#8 []).wellFormed = false ∧
    (Instr.unknown .inbound 0x0D#8 []).wellFormed = true := by decide

theorem test_wellFormed_unknown_too_long :
    (Instr.unknown .inbound 0x0D#8 (zeros 65536)).wellFormed = false := by
  simp [Instr.wellFormed, fitsPayload]

theorem test_wellFormed_ackOther_named_original :
    (Instr.ackOther .inbound 0x02#8 []).wellFormed = false ∧
    (Instr.ackOther .inbound 0x06#8 []).wellFormed = false ∧
    (Instr.ackOther .inbound 0x07#8 []).wellFormed = true := by decide

theorem test_wellFormed_argument_too_long :
    (Instr.ackReadConfiguration .inbound (zeros 65535)).wellFormed = false ∧
    (Instr.ackOther .inbound 0x07#8 (zeros 65535)).wellFormed = false ∧
    (Instr.nackAny .inbound 0x03#8 (zeros 65535)).wellFormed = false := by
  simp [Instr.wellFormed, fitsArgument]

/-! ## Decoding: every row, its bytes written out from R80, R83 and R107 -/

theorem test_decode_ack :
    decodeExact .inbound [0x2A#8, 0x00#8, 0x00#8, 0x00#8] = some (.ack .inbound []) := by decide

theorem test_decode_nack :
    decodeExact .inbound [0x2A#8, 0x01#8, 0x00#8, 0x00#8] = some (.nack .inbound []) := by decide

theorem test_decode_readConfiguration :
    decodeExact .outbound [0x2A#8, 0x02#8, 0x00#8, 0x01#8, 0x99#8] = some (.readConfiguration .outbound [0x99#8]) := by decide

theorem test_decode_writeConfiguration :
    decodeExact .outbound [0x2A#8, 0x03#8, 0x00#8, 0x01#8, 0x99#8] = some (.writeConfiguration .outbound [0x99#8]) := by decide

theorem test_decode_readDateTime :
    decodeExact .outbound [0x2A#8, 0x04#8, 0x00#8, 0x01#8, 0x99#8] = some (.readDateTime .outbound [0x99#8]) := by decide

theorem test_decode_writeDateTime :
    decodeExact .outbound [0x2A#8, 0x05#8, 0x00#8, 0x01#8, 0x99#8] = some (.writeDateTime .outbound [0x99#8]) := by decide

theorem test_decode_readBatteryStatus :
    decodeExact .outbound [0x2A#8, 0x06#8, 0x00#8, 0x01#8, 0x99#8] = some (.readBatteryStatus .outbound [0x99#8]) := by decide

theorem test_decode_showYourself :
    decodeExact .outbound [0x2A#8, 0x07#8, 0x00#8, 0x01#8, 0x99#8] = some (.showYourself .outbound [0x99#8]) := by decide

theorem test_decode_stopSendData :
    decodeExact .outbound [0x2A#8, 0x08#8, 0x00#8, 0x01#8, 0x99#8] = some (.stopSendData .outbound [0x99#8]) := by decide

theorem test_decode_startSendData :
    decodeExact .outbound [0x2A#8, 0x09#8, 0x00#8, 0x01#8, 0x99#8] = some (.startSendData .outbound [0x99#8]) := by decide

theorem test_decode_stopSendLog :
    decodeExact .outbound [0x2A#8, 0x0A#8, 0x00#8, 0x01#8, 0x99#8] = some (.stopSendLog .outbound [0x99#8]) := by decide

theorem test_decode_startSendLog :
    decodeExact .outbound [0x2A#8, 0x0B#8, 0x00#8, 0x01#8, 0x99#8] = some (.startSendLog .outbound [0x99#8]) := by decide

theorem test_decode_getData :
    decodeExact .outbound [0x2A#8, 0x0C#8, 0x00#8, 0x01#8, 0x99#8] = some (.getData .outbound [0x99#8]) := by decide

theorem test_decode_sendData :
    decodeExact .inbound [0x2A#8, 0x32#8, 0x00#8, 0x03#8, 0xAA#8, 0xBB#8, 0xCC#8] =
      some (.sendData .inbound [0xAA#8, 0xBB#8, 0xCC#8]) := by decide

theorem test_decode_sendLog :
    decodeExact .inbound [0x2A#8, 0x33#8, 0x00#8, 0x02#8, 0x2A#8, 0x2A#8] =
      some (.sendLog .inbound [0x2A#8, 0x2A#8]) := by decide

theorem test_decode_unknown :
    decodeExact .inbound [0x2A#8, 0x0D#8, 0x00#8, 0x01#8, 0x99#8] =
      some (.unknown .inbound 0x0D#8 [0x99#8]) := by decide

theorem test_decode_ackReadConfiguration :
    decodeExact .inbound [0x2A#8, 0x00#8, 0x00#8, 0x03#8, 0x02#8, 0xDE#8, 0xAD#8] =
      some (.ackReadConfiguration .inbound [0xDE#8, 0xAD#8]) := by decide

theorem test_decode_ackWriteConfiguration :
    decodeExact .inbound [0x2A#8, 0x00#8, 0x00#8, 0x01#8, 0x03#8] =
      some (.ackWriteConfiguration .inbound []) := by decide

theorem test_decode_ackReadDateTime :
    decodeExact .inbound [0x2A#8, 0x00#8, 0x00#8, 0x08#8, 0x04#8, 0x07#8, 0xE8#8, 0x03#8, 0x0F#8, 0x0C#8, 0x1E#8, 0x2D#8] =
      some (.ackReadDateTime .inbound [0x07#8, 0xE8#8, 0x03#8, 0x0F#8, 0x0C#8, 0x1E#8, 0x2D#8]) := by decide

theorem test_decode_ackWriteDateTime :
    decodeExact .inbound [0x2A#8, 0x00#8, 0x00#8, 0x01#8, 0x05#8] =
      some (.ackWriteDateTime .inbound []) := by decide

theorem test_decode_ackReadBatteryStatus :
    decodeExact .inbound [0x2A#8, 0x00#8, 0x00#8, 0x05#8, 0x06#8, 0x00#8, 0x00#8, 0x03#8, 0xE8#8] =
      some (.ackReadBatteryStatus .inbound [0x00#8, 0x00#8, 0x03#8, 0xE8#8]) := by decide

theorem test_decode_ackOther :
    decodeExact .inbound [0x2A#8, 0x00#8, 0x00#8, 0x01#8, 0x07#8] = some (.ackOther .inbound 0x07#8 []) ∧
    decodeExact .inbound [0x2A#8, 0x00#8, 0x00#8, 0x01#8, 0x01#8] = some (.ackOther .inbound 0x01#8 []) := by decide

theorem test_decode_nackAny :
    decodeExact .inbound [0x2A#8, 0x01#8, 0x00#8, 0x02#8, 0x03#8, 0x05#8] =
      some (.nackAny .inbound 0x03#8 [0x05#8]) := by decide

theorem test_decode_length_is_big_endian :
    decodeExact .inbound [0x2A#8, 0x32#8, 0x01#8, 0x00#8, 0x00#8] = none ∧
    decodeFrame .inbound [0x2A#8, 0x32#8, 0x01#8, 0x00#8, 0x00#8] = .error (.shortPayload 256) := by
  exact ⟨by decide, rfl⟩

theorem test_decode_refuses :
    decodeFrame .inbound [0x2B#8, 0x32#8, 0x00#8, 0x00#8] = .error (.notMagic 0x2B#8) ∧
    decodeFrame .inbound [0x2A#8, 0x32#8, 0x00#8] = .error .shortHeader ∧
    decodeFrame .inbound [] = .error .shortHeader := 
  ⟨rfl, rfl, rfl⟩

theorem test_decode_stops_at_the_frame :
    decodeFrame .inbound [0x2A#8, 0x32#8, 0x00#8, 0x01#8, 0xAA#8, 0x2A#8, 0x33#8] =
      .ok (.sendData .inbound [0xAA#8], [0x2A#8, 0x33#8]) := rfl

/-- A sub-format word with `length = 0` is no instruction (R86). -/
theorem test_table_words :
    decodeTableWord 32 0x2A000001 = some (.ack .inbound [0x00#8]) ∧
    decodeTableWord 32 0x2A330010 = some (.sendLog .inbound (List.replicate 16 0x00#8)) ∧
    decodeTableWord 40 0x2A00000506 =
      some (.ackReadBatteryStatus .inbound [0x00#8, 0x00#8, 0x00#8, 0x00#8]) ∧
    decodeTableWord 40 0x2A00000002 = none := by decide

/-! ## Instructions, inbound: vectors of section 2.4 -/

/-- V-X6. -/
theorem test_ack :
    eventsOf (exec (.ack .inbound [0x03#8, 0x99#8]) State.reset) =
      some [.writeConfiguration] := by decide

/-- V-X20. -/
theorem test_nack :
    eventsOf (exec (.nack .inbound [0xFF#8, 0x07#8]) State.reset) =
      some [.commandFailed .unknown 0x07#8] := by decide

/-- V-X1. -/
theorem test_sendData :
    eventsOf (exec (.sendData .inbound [0xAA#8, 0xBB#8, 0xCC#8]) State.reset) =
      some [.receivedData [0xAA#8, 0xBB#8, 0xCC#8]] := by decide

/-- V-X2. -/
theorem test_sendLog :
    eventsOf (exec (.sendLog .inbound [0x2A#8, 0x2A#8]) State.reset) =
      some [.receivedLog [0x2A#8, 0x2A#8]] := by decide

/-- V-X3. -/
theorem test_ackReadConfiguration :
    eventsOf (exec (.ackReadConfiguration .inbound [0xDE#8, 0xAD#8]) State.reset) =
      some [.readConfiguration [0xDE#8, 0xAD#8]] := by decide

/-- V-X4. -/
theorem test_ackReadConfiguration_empty :
    eventsOf (exec (.ackReadConfiguration .inbound []) State.reset) =
      some [.readConfiguration []] := by decide

/-- V-X5. -/
theorem test_ackWriteConfiguration :
    eventsOf (exec (.ackWriteConfiguration .inbound []) State.reset) =
      some [.writeConfiguration] := by decide

/-- V-X8. -/
theorem test_ackReadDateTime :
    eventsOf (exec (.ackReadDateTime .inbound [0x07#8, 0xE8#8, 0x03#8, 0x0F#8, 0x0C#8, 0x1E#8, 0x2D#8, 0x77#8]) State.reset) =
      some [.readDateTime someDate] := by decide

/-- V-X9. -/
theorem test_ackReadDateTime_short :
    eventsOf (exec (.ackReadDateTime .inbound [0x07#8, 0xE8#8, 0x03#8, 0x0F#8, 0x0C#8, 0x1E#8]) State.reset) =
      some [.error .payloadLengthMismatch] := by decide

/-- V-X11. -/
theorem test_ackWriteDateTime :
    eventsOf (exec (.ackWriteDateTime .inbound []) State.reset) =
      some [.writeDateTime] := by decide

/-- V-X13. -/
theorem test_ackReadBatteryStatus :
    eventsOf (exec (.ackReadBatteryStatus .inbound [0x00#8, 0x00#8, 0x03#8, 0xE8#8, 0xFF#8]) State.reset) =
      some [.batteryStatus 1000#32] := by decide

/-- V-X14. -/
theorem test_ackReadBatteryStatus_short :
    eventsOf (exec (.ackReadBatteryStatus .inbound [0x00#8, 0x00#8, 0x03#8]) State.reset) =
      some [.error .payloadLengthMismatch] := by decide

/-- V-X17. -/
theorem test_ackOther :
    eventsOf (exec (.ackOther .inbound 0xFF#8 []) State.reset) =
      some [.ignored] := by decide

/-- V-X21. -/
theorem test_nackAny :
    eventsOf (exec (.nackAny .inbound 0x03#8 [0x05#8, 0x09#8]) State.reset) =
      some [.commandFailed .writeConfiguration 0x05#8] := by decide

/-- V-X19. -/
theorem test_nackAny_short :
    eventsOf (exec (.nackAny .inbound 0x03#8 []) State.reset) =
      some [.error .payloadLengthMismatch] := by decide

/-- V-X23. -/
theorem test_unknown :
    eventsOf (exec (.unknown .inbound 0x0D#8 [0x99#8]) State.reset) =
      some [.ignored] := by decide

/-- V-X22. -/
theorem test_readDateTime_inbound :
    eventsOf (exec (.readDateTime .inbound [0x00#8]) State.reset) =
      some [.ignored] := by decide

/-! ## Instructions, outbound: vectors of section 2.1 -/

/-- V-E5. -/
theorem test_readConfiguration :
    writtenOf (exec (.readConfiguration .outbound []) State.reset) =
      some [[0x2A#8, 0x02#8, 0x00#8, 0x00#8]] := by decide

/-- V-E3. -/
theorem test_writeConfiguration :
    writtenOf (exec (.writeConfiguration .outbound [0xDE#8, 0xAD#8, 0xBE#8, 0xEF#8]) State.reset) =
      some [[0x2A#8, 0x03#8, 0x00#8, 0x04#8, 0xDE#8, 0xAD#8, 0xBE#8, 0xEF#8]] := by decide

/-- V-E1. -/
theorem test_readDateTime :
    writtenOf (exec (.readDateTime .outbound []) State.reset) =
      some [[0x2A#8, 0x04#8, 0x00#8, 0x00#8]] := by decide

/-- V-E2. -/
theorem test_writeDateTime :
    writtenOf (exec (.writeDateTime .outbound [0x07#8, 0xE8#8, 0x03#8, 0x0F#8, 0x0C#8, 0x1E#8, 0x2D#8, 0x05#8]) State.reset) =
      some [[0x2A#8, 0x05#8, 0x00#8, 0x08#8, 0x07#8, 0xE8#8, 0x03#8, 0x0F#8, 0x0C#8, 0x1E#8, 0x2D#8, 0x05#8]] := by decide

/-- V-E6. -/
theorem test_readBatteryStatus :
    writtenOf (exec (.readBatteryStatus .outbound []) State.reset) =
      some [[0x2A#8, 0x06#8, 0x00#8, 0x00#8]] := by decide

/-- V-E7. -/
theorem test_showYourself :
    writtenOf (exec (.showYourself .outbound []) State.reset) =
      some [[0x2A#8, 0x07#8, 0x00#8, 0x00#8]] := by decide

/-- V-E8. -/
theorem test_stopSendData :
    writtenOf (exec (.stopSendData .outbound []) State.reset) =
      some [[0x2A#8, 0x08#8, 0x00#8, 0x00#8]] := by decide

/-- V-E9. -/
theorem test_startSendData :
    writtenOf (exec (.startSendData .outbound []) State.reset) =
      some [[0x2A#8, 0x09#8, 0x00#8, 0x00#8]] := by decide

/-- V-E10. -/
theorem test_stopSendLog :
    writtenOf (exec (.stopSendLog .outbound []) State.reset) =
      some [[0x2A#8, 0x0A#8, 0x00#8, 0x00#8]] := by decide

/-- V-E11. -/
theorem test_startSendLog :
    writtenOf (exec (.startSendLog .outbound []) State.reset) =
      some [[0x2A#8, 0x0B#8, 0x00#8, 0x00#8]] := by decide

/-- V-E12. -/
theorem test_getData :
    writtenOf (exec (.getData .outbound []) State.reset) =
      some [[0x2A#8, 0x0C#8, 0x00#8, 0x00#8]] := by decide

/-- V-E20. -/
theorem test_ack_outbound :
    writtenOf (exec (.ack .outbound [0x03#8]) State.reset) =
      some [[0x2A#8, 0x00#8, 0x00#8, 0x01#8, 0x03#8]] := by decide

/-- V-E18. -/
theorem test_unknown_outbound :
    writtenOf (exec (.unknown .outbound 0xFF#8 [0x01#8]) State.reset) =
      some [[0x2A#8, 0xFF#8, 0x00#8, 0x01#8, 0x01#8]] := by decide

/-! ## The encoder, the codec and the type codes -/

/-- V-E17. -/
theorem test_encode_magic_in_payload :
    bytesResult (encodeArgs 0x03#8 (some [0x2A#8, 0x2A#8, 0x2A#8])) =
      .bytes [0x2A#8, 0x03#8, 0x00#8, 0x03#8, 0x2A#8, 0x2A#8, 0x2A#8] := by decide

/-- V-E14. -/
theorem test_encode_carry :
    (frameBytes 0x03#8 (List.replicate 256 0x00#8)).take 4 = [0x2A#8, 0x03#8, 0x01#8, 0x00#8] := by
  simp only [frameBytes, List.length_replicate]; rfl

/-- V-E16. -/
theorem test_encode_too_large :
    bytesResult (encodeArgs 0x03#8 (some (zeros 65536))) =
      .error .argumentTooLarge := by
  simp [encodeArgs, argBytes, bytesResult]

/-- V-E19. -/
theorem test_encodeCmd_unknown :
    bytesResult (encodeCmd .unknown none) = .error .unencodableCommand := by decide

/-- V-C1. -/
theorem test_date_write_form :
    encodeDateTimeForWrite someDate 5#8 = [0x07#8, 0xE8#8, 0x03#8, 0x0F#8, 0x0C#8, 0x1E#8, 0x2D#8, 0x05#8] := by decide

/-- V-C5. -/
theorem test_date_read :
    dateTimeResult (decodeDateTime [0x07#8, 0xE8#8, 0x03#8, 0x0F#8, 0x0C#8, 0x1E#8, 0x2D#8]) = .dateTime someDate := by decide

/-- V-C6, V-C7. -/
theorem test_date_lengths :
    dateTimeResult (decodeDateTime [0x07#8, 0xE8#8, 0x03#8, 0x0F#8, 0x0C#8, 0x1E#8]) = .error .payloadLengthMismatch ∧
    dateTimeResult (decodeDateTime [0x07#8, 0xE8#8, 0x03#8, 0x0F#8, 0x0C#8, 0x1E#8, 0x2D#8, 0x05#8]) = .error .payloadLengthMismatch := by decide

/-- V-C11. -/
theorem test_u32_order :
    wordResult (decodeU32BE [0x01#8, 0x02#8, 0x03#8, 0x04#8]) = .word 16909060#32 := by decide

/-- V-C12. -/
theorem test_u32_unsigned :
    wordResult (decodeU32BE [0x80#8, 0x00#8, 0x00#8, 0x00#8]) = .word 2147483648#32 := by decide

/-- V-C13. -/
theorem test_u32_length :
    wordResult (decodeU32BE [0x00#8, 0x00#8, 0x03#8]) = .error .payloadLengthMismatch := by decide

/-- Section 2.5. -/
theorem test_type_codes :
    [0x00#8, 0x0C#8, 0x0D#8, 0x2A#8, 0x31#8, 0x32#8, 0x33#8, 0x34#8, 0xFF#8].map cmdOf =
      [.ack, .getData, .unknown, .unknown, .unknown, .sendData, .sendLog, .unknown, .unknown] ∧
    codeOf .sendLog = some 0x33#8 ∧ codeOf .unknown = none := by decide

/-! ## DEC: vectors of section 2.2, each one step -/

/-- V-D3. -/
theorem test_two_frames_in_a_chunk :
    emittedOf (step (fresh (.rx [0x2A#8, 0x01#8, 0x00#8, 0x02#8, 0x03#8, 0x05#8, 0x2A#8, 0x00#8, 0x00#8, 0x01#8, 0x03#8]))) =
      some [{ ftype := 0x01#8, length := 2#16, payload := [0x03#8, 0x05#8] },
        { ftype := 0x00#8, length := 1#16, payload := [0x03#8] }] := by decide

/-- V-D5. -/
theorem test_desync :
    resultsOf (step (fresh (.rx [0x00#8, 0x2A#8, 0x01#8, 0x00#8, 0x02#8, 0x03#8, 0x05#8]))) =
      some [.chunk [] true] := by decide

/-- V-D7. -/
theorem test_desync_after_a_frame :
    resultsOf (step (fresh (.rx [0x2A#8, 0x00#8, 0x00#8, 0x01#8, 0x03#8, 0xFF#8, 0x2A#8, 0x00#8, 0x00#8, 0x01#8, 0x05#8]))) =
      some [.chunk [{ ftype := 0x00#8, length := 1#16, payload := [0x03#8] }] true] := by decide

/-- V-D8. -/
theorem test_zero_length_wedges :
    pfOf (step (fresh (.rx [0x2A#8, 0x04#8, 0x00#8, 0x00#8]))) = some wedged ∧
    emittedOf (step (fresh (.rx [0x2A#8, 0x04#8, 0x00#8, 0x00#8]))) = some [] := by decide

/-- V-D8b, P4 step 4. -/
theorem test_wedged_faults :
    step (midFrame wedged (.rx [0x2A#8, 0x00#8, 0x00#8, 0x01#8, 0x03#8])) =
      .next (((State.reset.setPf wedged).setFault true).addResult (.overrun [])) := rfl

/-- V-D9, its first two chunks. -/
theorem test_split_header :
    pfOf (step (fresh (.rx [0x2A#8, 0x32#8, 0x00#8]))) = some
      { bytesConsumed := 3, ftype := 0x32#8, length := 0#16, payload := [] } ∧
    pfOf (step (midFrame { bytesConsumed := 3, ftype := 0x32#8, length := 0#16, payload := [] }
      (.rx [0x03#8, 0xAA#8]))) = some
      { bytesConsumed := 5, ftype := 0x32#8, length := 3#16, payload := [(0, 0xAA#8)] } := by decide

/-- V-D11. -/
theorem test_magic_everywhere :
    pfOf (step (fresh (.rx [0x2A#8, 0x2A#8, 0x2A#8, 0x2A#8]))) = some
      { bytesConsumed := 4, ftype := 0x2A#8, length := 10794#16, payload := [] } := by decide

/-- V-D13. -/
theorem test_length_high_byte :
    pfOf (step (fresh (.rx [0x2A#8, 0x00#8, 0x01#8, 0x00#8]))) = some
      { bytesConsumed := 4, ftype := 0x00#8, length := 256#16, payload := [] } := by decide

/-- V-D15. -/
theorem test_non_magic_mid_frame :
    emittedOf (step (midFrame { bytesConsumed := 1, ftype := 0#8, length := 0#16, payload := [] }
      (.rx [0x07#8, 0x00#8, 0x01#8, 0x55#8]))) = some [{ ftype := 0x07#8, length := 1#16, payload := [0x55#8] }] := by decide

/-- V-D20. -/
theorem test_close :
    step (midFrame twoOfFour .close) = .next (State.reset.setClosed true) := rfl

/-- V-D21. -/
theorem test_timeout : pfOf (step (midFrame twoOfFour .timeout)) = some twoOfFour := by decide

/-- P5 step 3. -/
theorem test_frame_swallows_the_next :
    resultsOf (step (midFrame twoOfFour
      (.rx [0x2A#8, 0x00#8, 0x00#8, 0x08#8, 0x04#8, 0x07#8, 0xE8#8, 0x03#8, 0x0F#8, 0x0C#8, 0x1E#8, 0x2D#8]))) =
      some [.chunk [{ ftype := 0x32#8, length := 4#16, payload := [0xAA#8, 0xBB#8, 0x2A#8, 0x00#8] }] true] := by decide

/-- P2 step 1: `FF FF` never reach DEC. -/
theorem test_send_discards_input :
    writtenOf (step ((fresh (.send 0x06#8 none)).setRxq [0xFF#8, 0xFF#8])) = some [[0x2A#8, 0x06#8, 0x00#8, 0x00#8]] ∧
    step ((fresh (.send 0x06#8 none)).setRxq [0xFF#8, 0xFF#8]) = step (fresh (.send 0x06#8 none)) := ⟨rfl, rfl⟩

/-- P5 step 2. -/
theorem test_send_keeps_the_partial_frame :
    pfOf (step (midFrame twoOfFour (.send 0x04#8 none))) = some twoOfFour := by decide

/-- R166: the drop bit. -/
theorem test_byte_serial_desync_drops :
    step (fresh (.byteIn 0x00#8 false)) =
      .next (((State.reset.setLock .rx).setDrop true).addResult (.chunk [] true)) ∧
    step ((((fresh (.byteIn 0x2A#8 true)).setLock .rx).setDrop true)) = .next State.reset := ⟨rfl, rfl⟩

/-- P1 step 1. -/
theorem test_call :
    writtenOf (step (fresh (.call (.setDateTime someDate 5#8)))) =
      some [[0x2A#8, 0x05#8, 0x00#8, 0x08#8, 0x07#8, 0xE8#8, 0x03#8, 0x0F#8, 0x0C#8, 0x1E#8, 0x2D#8, 0x05#8]] := by decide

/-- The step runs the word that `withFetchWord` places. -/
theorem test_fetch :
    eventsOf (step (State.reset.withFetchWord 40 0x2A00000103)) = some [.writeConfiguration] ∧
    writtenOf (step (State.reset.withFetchWord 32 0x2A040000)) = some [[0x2A#8, 0x04#8, 0x00#8, 0x00#8]] := by decide

/-! ## Witnesses: for each obligation with hypotheses, what meets them -/

theorem ready_reset : Ready State.reset := ⟨⟨rfl, rfl, rfl⟩, rfl⟩

theorem canSend_reset : CanSend State.reset := ⟨rfl, rfl⟩

theorem inv_reset : StateInv State.reset :=
  ⟨pfInv_empty, fun _ => rfl, by decide, fun _ => rfl, (by intro h; cases h), (by intro h; cases h)⟩

/-- The longest payload and the longest argument. -/
theorem longest_payload : (zeros 65535).length ≤ 65535 := by simp

theorem longest_argument : (zeros 65534).length ≤ 65534 := by simp

theorem longest_is_not_empty : zeros 65535 ≠ [] := List.ne_nil_of_length_pos (by simp)

theorem witness_FrameRowsRoundTrip :
    (Instr.unknown .inbound 0xFF#8 []).wellFormed = true ∧
    (Instr.unknown .inbound 0xFF#8 []).isSubFormat = false := ⟨rfl, rfl⟩

theorem witness_SubFormatRowsRoundTrip :
    (Instr.ackOther .inbound 0x01#8 []).wellFormed = true ∧
    (Instr.ackOther .inbound 0x01#8 []).isSubFormat = true := ⟨rfl, rfl⟩

theorem witness_DecodedInstructionReencodes :
    decode .inbound [0x2A#8, 0x0D#8, 0x00#8, 0x01#8, 0x99#8, 0x2A#8] =
      .ok (.unknown .inbound 0x0D#8 [0x99#8], [0x2A#8]) := rfl

theorem witness_NonMagicIsNoFrame : (0x2B#8 : Byte) ≠ 0x2A#8 := by decide

theorem witness_TypeCodesAreInverse :
    CommandType.ack ≠ .unknown ∧ CommandType.sendLog ≠ .unknown := by decide

theorem witness_EncodeBuildsTheFrame :
    (zeros 65535).length ≤ 65535 ∧
    65535 < (zeros 65536).length := by simp

theorem witness_EncodeIsInjective :
    encodeArgs 0x03#8 none = .ok [0x2A#8, 0x03#8, 0x00#8, 0x00#8] ∧
    encodeArgs 0x03#8 (some []) = .ok [0x2A#8, 0x03#8, 0x00#8, 0x00#8] := ⟨rfl, rfl⟩

theorem witness_TypedEncoderRefusesUnknown :
    codeOf .ack = some 0x00#8 ∧ codeOf .sendLog = some 0x33#8 := ⟨rfl, rfl⟩

theorem witness_DateTimeLayout :
    ([0x07#8, 0xE8#8, 0x03#8, 0x0F#8, 0x0C#8, 0x1E#8] : List Byte).length ≠ 7 ∧
    ([0x07#8, 0xE8#8, 0x03#8, 0x0F#8, 0x0C#8, 0x1E#8, 0x2D#8, 0x05#8] : List Byte).length ≠ 7 := by decide

theorem witness_BatteryValueLayout :
    ([0x00#8, 0x00#8, 0x03#8] : List Byte).length ≠ 4 ∧
    ([0x00#8, 0x00#8, 0x03#8, 0xE8#8, 0xFF#8] : List Byte).length ≠ 4 := by decide

theorem witness_SendDataReachesTheSink :
    Ready State.reset ∧ zeros 65535 ≠ [] ∧
    (zeros 65535).length ≤ 65535 := 
  ⟨ready_reset, longest_is_not_empty, longest_payload⟩

theorem witness_SendLogReachesTheSink :
    Ready State.reset ∧ zeros 65535 ≠ [] ∧
    (zeros 65535).length ≤ 65535 := 
  ⟨ready_reset, longest_is_not_empty, longest_payload⟩

theorem witness_AckAndNackFramesGiveOneEvent :
    Ready State.reset ∧ zeros 65535 ≠ [] ∧
    (zeros 65535).length ≤ 65535 := 
  ⟨ready_reset, longest_is_not_empty, longest_payload⟩

theorem witness_TypesWithNoBranchAreIgnored :
    Ready State.reset ∧ zeros 65535 ≠ [] ∧
    (zeros 65535).length ≤ 65535 := 
  ⟨ready_reset, longest_is_not_empty, longest_payload⟩

theorem witness_AckReadConfigurationCarriesTheBlob :
    Ready State.reset ∧ (zeros 65534).length ≤ 65534 := 
  ⟨ready_reset, longest_argument⟩

theorem witness_AcksOfWritesCarryNothing :
    Ready State.reset ∧ (zeros 65534).length ≤ 65534 := 
  ⟨ready_reset, longest_argument⟩

theorem witness_AckReadDateTimeParsesSevenBytes :
    Ready State.reset ∧ ([0x07#8, 0xE8#8, 0x03#8, 0x0F#8, 0x0C#8, 0x1E#8] : List Byte).length < 7 ∧
    ([0x07#8, 0xE8#8, 0x03#8, 0x0F#8, 0x0C#8, 0x1E#8, 0x2D#8] : List Byte) =
      0x07#8 :: 0xE8#8 :: 0x03#8 :: 0x0F#8 :: 0x0C#8 :: 0x1E#8 :: 0x2D#8 :: [] ∧
    ([0x07#8, 0xE8#8, 0x03#8, 0x0F#8, 0x0C#8, 0x1E#8, 0x2D#8] : List Byte).length ≤ 65534 ∧
    (2024#16 : Half).toNat = 256 * (0x07#8 : Byte).toNat + (0xE8#8 : Byte).toNat := 
  ⟨ready_reset, by decide, rfl, by decide, by decide⟩

theorem witness_AckReadBatteryParsesFourBytes :
    Ready State.reset ∧ ([0x00#8, 0x00#8, 0x03#8] : List Byte).length < 4 ∧
    ([0x00#8, 0x00#8, 0x03#8, 0xE8#8] : List Byte) = 0x00#8 :: 0x00#8 :: 0x03#8 :: 0xE8#8 :: [] ∧
    ([0x00#8, 0x00#8, 0x03#8, 0xE8#8] : List Byte).length ≤ 65534 ∧
    (1000#32 : Word).toNat = 16777216 * (0x00#8 : Byte).toNat + 65536 * (0x00#8 : Byte).toNat +
      256 * (0x03#8 : Byte).toNat + (0xE8#8 : Byte).toNat := 
  ⟨ready_reset, by decide, rfl, by decide, by decide⟩

theorem witness_OtherAcksAreIgnored :
    Ready State.reset ∧ ([] : List Byte).length ≤ 65534 ∧
    ¬(2 ≤ (0x01#8 : Byte).toNat ∧ (0x01#8 : Byte).toNat ≤ 6) ∧
    ¬(2 ≤ (0x07#8 : Byte).toNat ∧ (0x07#8 : Byte).toNat ≤ 6) := 
  ⟨ready_reset, by decide, by decide, by decide⟩

theorem witness_NackReportsCommandFailed :
    Ready State.reset ∧ (zeros 65533).length ≤ 65533 := 
  ⟨ready_reset, by simp⟩

theorem witness_AckAndNackBranchOnOriginal :
    ¬(2 ≤ (0x01#8 : Byte).toNat ∧ (0x01#8 : Byte).toNat ≤ 6) ∧
    ¬(2 ≤ (0x07#8 : Byte).toNat ∧ (0x07#8 : Byte).toNat ≤ 6) := by decide

theorem witness_UnknownTypesAreIgnored :
    Ready State.reset ∧ zeros 65535 ≠ [] ∧
    (zeros 65535).length ≤ 65535 ∧
    ∀ t : Byte, t ∈ [0x0D#8, 0x31#8, 0x34#8] → ¬(t.toNat ≤ 12 ∨ t.toNat = 50 ∨ t.toNat = 51) := 
  ⟨ready_reset, longest_is_not_empty, longest_payload, by decide⟩

theorem witness_ZeroLengthFrameWedges :
    Ready State.reset ∧ (Instr.ack .inbound []).dir = .inbound ∧
    (Instr.ack .inbound []).payload = [] := ⟨ready_reset, rfl, rfl⟩

theorem witness_InboundFrameRule :
    (Instr.sendData .inbound [0xAA#8]).dir = .inbound ∧ Ready State.reset ∧
    eventsOf (exec (.sendData .inbound [0xAA#8]) State.reset) = some [.receivedData [0xAA#8]] := 
  ⟨rfl, ready_reset, by decide⟩

theorem witness_InboundFrameRule_faulted :
    (Instr.sendData .inbound [0xAA#8]).dir = .inbound ∧ (State.reset.setFault true).decFault = true ∧
    exec (.sendData .inbound [0xAA#8]) (State.reset.setFault true) =
      .next ((State.reset.setFault true).addResult (.error .refused)) := ⟨rfl, rfl, rfl⟩

theorem witness_MidFrameBytesFillTheirSlots :
    Open (State.reset.setPf { twoOfFour with length := 8#16 }) ∧
    (Instr.sendData .inbound [0xCC#8]).dir = .inbound ∧
    (Instr.sendData .inbound [0xCC#8]).wellFormed = true ∧
    4 ≤ (State.reset.setPf { twoOfFour with length := 8#16 }).pf.bytesConsumed ∧
    (State.reset.setPf { twoOfFour with length := 8#16 }).pf.bytesConsumed +
      (encode (.sendData .inbound [0xCC#8])).length <
      4 + (State.reset.setPf { twoOfFour with length := 8#16 }).pf.length.toNat :=
  ⟨⟨rfl, rfl, rfl⟩, rfl, rfl, by decide, by decide⟩

theorem witness_SendWritesTheFrame :
    (Instr.sendData .outbound [0xAA#8]).dir = .outbound ∧
    (Instr.sendData .outbound [0xAA#8]).wellFormed = true ∧ CanSend State.reset ∧
    CanSend (State.reset.setWriteAnswer .transportError) := 
  ⟨rfl, rfl, canSend_reset, ⟨rfl, rfl⟩⟩

theorem witness_SendErrorsComeInOrder :
    (Instr.writeConfiguration .outbound (zeros 65536)).dir = .outbound ∧
    65535 < (Instr.writeConfiguration .outbound (zeros 65536)).payload.length ∧
    (Instr.writeConfiguration .outbound (zeros 65535)).dir = .outbound ∧
    (Instr.writeConfiguration .outbound (zeros 65535)).payload.length ≤ 65535 ∧
    (State.reset.setClosed true).decClosed = true := by
  simp [Instr.dir, Instr.payload]

theorem witness_OutboundFrameRule :
    (Instr.getData .outbound []).dir = .outbound ∧
    writtenOf (exec (.getData .outbound []) State.reset) = some [[0x2A#8, 0x0C#8, 0x00#8, 0x00#8]] := 
  ⟨rfl, by decide⟩

theorem witness_CallsSendTheirFrames :
    (fresh (.call .getDateTime)).todo = .call .getDateTime :: [] ∧
    CanSend (fresh (.call .getDateTime)) ∧
    (256 * (0x07#8 : Byte).toNat + (0xE8#8 : Byte).toNat = someDate.year.toNat) ∧
    (256 * (0xFF#8 : Byte).toNat + (0xFF#8 : Byte).toNat = (zeros 65535).length) := 
  ⟨rfl, ⟨rfl, rfl⟩, by decide, by simp⟩

theorem witness_HeaderBytesAdvanceTheState :
    PartialFrame.empty.bytesConsumed = 0 ∧ (0x00#8 : Byte) ≠ 0x2A#8 ∧
    ({ PartialFrame.empty with bytesConsumed := 1 } : PartialFrame).bytesConsumed = 1 ∧
    ({ PartialFrame.empty with bytesConsumed := 2 } : PartialFrame).bytesConsumed = 2 ∧
    ({ PartialFrame.empty with bytesConsumed := 3 } : PartialFrame).bytesConsumed = 3 := 
  ⟨rfl, by decide, rfl, rfl, rfl⟩

theorem witness_PayloadByteFillsItsSlot :
    PfInv twoOfFour ∧ 4 ≤ twoOfFour.bytesConsumed ∧
    twoOfFour.bytesConsumed - 4 + 1 < twoOfFour.length.toNat := 
  ⟨⟨by decide, by decide, by decide, by decide, by decide, by decide⟩, by decide, by decide⟩

theorem witness_PayloadByteFillsItsSlot_last :
    PfInv { bytesConsumed := 4, ftype := 0x00#8, length := 1#16, payload := [] } ∧
    (4 - 4 + 1 = (1#16 : Half).toNat) := 
  ⟨⟨by decide, by decide, by decide, by decide, by decide, by decide⟩, by decide⟩

theorem witness_EmittedFramesAreWhole :
    decByte 0x03#8 { bytesConsumed := 4, ftype := 0x00#8, length := 1#16, payload := [] } =
      (.empty, .emit { ftype := 0x00#8, length := 1#16, payload := [0x03#8] }) := rfl

theorem witness_DesyncDropsTheChunk :
    (fresh (.rx [0x00#8, 0x2A#8])).todo = .rx (0x00#8 :: [0x2A#8]) :: [] ∧
    Ready (fresh (.rx [0x00#8, 0x2A#8])) ∧ (0x00#8 : Byte) ≠ 0x2A#8 := 
  ⟨rfl, ⟨⟨rfl, rfl, rfl⟩, rfl⟩, by decide⟩

theorem witness_DesyncKeepsEarlierFrames :
    (fresh (.rx [0x2A#8, 0x00#8, 0x00#8, 0x01#8, 0x03#8, 0xFF#8, 0x2A#8])).todo =
      .rx (frameBytes 0x00#8 [0x03#8] ++ 0xFF#8 :: [0x2A#8]) :: [] ∧
    Ready (fresh (.rx [0x2A#8, 0x00#8, 0x00#8, 0x01#8, 0x03#8, 0xFF#8, 0x2A#8])) ∧
    ([0x03#8] : List Byte) ≠ [] ∧ ([0x03#8] : List Byte).length ≤ 65535 ∧
    (0xFF#8 : Byte) ≠ 0x2A#8 ∧ (1#16 : Half).toNat = ([0x03#8] : List Byte).length := 
  ⟨rfl, ⟨⟨rfl, rfl, rfl⟩, rfl⟩, by decide, by decide, by decide, by decide⟩

theorem witness_ByteWhenWedgedFaults :
    (midFrame wedged (.rx [0x2A#8])).todo = .rx (0x2A#8 :: []) :: [] ∧
    Open (midFrame wedged (.rx [0x2A#8])) ∧
    (midFrame wedged (.rx [0x2A#8])).pf.bytesConsumed = 4 ∧
    (midFrame wedged (.rx [0x2A#8])).pf.length = 0x0000#16 := 
  ⟨rfl, ⟨rfl, rfl, rfl⟩, rfl, rfl⟩

theorem witness_ChunkRefusedWhenStopped :
    ((fresh (.rx [])).setClosed true).todo = .rx [] :: [] ∧
    ((fresh (.rx [])).setClosed true).decClosed = true ∧
    ((fresh (.rx [])).setFault true).todo = .rx [] :: [] ∧
    ((fresh (.rx [])).setFault true).decFault = true := ⟨rfl, rfl, rfl, rfl⟩

theorem witness_EmptyChunkChangesNothing :
    (midFrame wedged (.rx [])).todo = .rx [] :: [] ∧ Open (midFrame wedged (.rx [])) := 
  ⟨rfl, ⟨rfl, rfl, rfl⟩⟩

/-- P1 steps 2 and 3. -/
theorem witness_FragmentationInvariance :
    ∃ t u, Open State.reset ∧ ([[0x2A#8, 0x00#8], [0x00#8, 0x01#8, 0x05#8]] : List (List Byte)).flatten = [0x2A#8, 0x00#8, 0x00#8, 0x01#8, 0x05#8] ∧
      step (State.reset.setTodo [.rx [0x2A#8, 0x00#8, 0x00#8, 0x01#8, 0x05#8]]) = .next t ∧
      t.results = State.reset.results ++ [.chunk [{ ftype := 0x00#8, length := 1#16, payload := [0x05#8] }] false] ∧
      (∀ fs, Result.chunk [{ ftype := 0x00#8, length := 1#16, payload := [0x05#8] }] false ≠ .chunk fs true) ∧
      runSteps 2 (State.reset.setTodo ([[0x2A#8, 0x00#8], [0x00#8, 0x01#8, 0x05#8]].map .rx)) = .next u := 
  ⟨_, _, ⟨rfl, rfl, rfl⟩, rfl, rfl, rfl, by simp, rfl⟩

theorem witness_EncodedFrameSurvivesAnyCut :
    Ready State.reset ∧ ([0x05#8] : List Byte) ≠ [] ∧
    encodeArgs 0x00#8 (some [0x05#8]) = .ok [0x2A#8, 0x00#8, 0x00#8, 0x01#8, 0x05#8] ∧
    ([[0x2A#8, 0x00#8], [0x00#8, 0x01#8, 0x05#8]] : List (List Byte)).flatten = [0x2A#8, 0x00#8, 0x00#8, 0x01#8, 0x05#8] := 
  ⟨ready_reset, by decide, rfl, rfl⟩

theorem witness_ByteSerialIsProcessChunk :
    ∃ t, Open State.reset ∧ State.reset.decDrop = false ∧
      deliver ([0x2A#8, 0x04#8, 0x00#8] ++ [0x00#8]) State.reset = .next t := 
  ⟨_, ⟨rfl, rfl, rfl⟩, rfl, rfl⟩

theorem witness_OnlyTheReceiverChangesThePartialFrame :
    ∃ t, step (fresh (.rx [0x2A#8])) = .next t ∧ t.pf ≠ (fresh (.rx [0x2A#8])).pf := 
  ⟨_, rfl, by decide⟩

theorem witness_OnlyCloseAndResetUnwedge :
    ∃ t, step (midFrame wedged .timeout) = .next t ∧
      (midFrame wedged .timeout).pf.bytesConsumed = 4 ∧
      (midFrame wedged .timeout).pf.length = 0x0000#16 := ⟨_, rfl, rfl, rfl⟩

theorem witness_OnlyResetClearsTheFault :
    ∃ t, step ((fresh .timeout).setFault true) = .next t ∧
      ((fresh .timeout).setFault true).decFault = true := ⟨_, rfl, rfl⟩

theorem witness_CloseIsTerminalUntilReset :
    ∃ t, step ((fresh (.send 0x04#8 none)).setClosed true) = .next t ∧
      ((fresh (.send 0x04#8 none)).setClosed true).decClosed = true := ⟨_, rfl, rfl⟩

theorem witness_CloseDiscardsThePartialFrame :
    (midFrame twoOfFour .close).todo = .close :: [] ∧ (midFrame twoOfFour .close).lock = .free := 
  ⟨rfl, rfl⟩

theorem witness_ResetRestoresTheResetState :
    (midFrame wedged .reset).todo = .reset :: [] ∧ (midFrame wedged .reset).lock = .free := 
  ⟨rfl, rfl⟩

theorem witness_TimeoutChangesNothing : (midFrame twoOfFour .timeout).todo = .timeout :: [] := rfl

theorem witness_OperationsWaitForTheLock :
    ((fresh .close).setLock .tx).todo = [.close] ∧ ((fresh .close).setLock .tx).lock ≠ .free ∧
    ((fresh .close).setLock .tx).decClosed = false ∧ ((fresh .close).setLock .tx).decFault = false ∧
    (zeros 65535).length ≤ 65535 := 
  ⟨rfl, by decide, rfl, rfl, longest_payload⟩

theorem witness_SendAndChunkCommute :
    ∃ t u, State.reset.lock = .free ∧
      runSteps 2 (State.reset.setTodo [.send 0x02#8 none, .rx [0x2A#8, 0x00#8, 0x00#8, 0x01#8, 0x03#8]]) = .next t ∧
      runSteps 2 (State.reset.setTodo [.rx [0x2A#8, 0x00#8, 0x00#8, 0x01#8, 0x03#8], .send 0x02#8 none]) = .next u := 
  ⟨_, _, rfl, rfl, rfl⟩

theorem witness_OnBytesDeliversAPrefix :
    ((fresh (.onBytes 1)).setRxq [0x2A#8, 0x00#8]).todo = .onBytes ([0x2A#8] : List Byte).length :: [] ∧
    ((fresh (.onBytes 1)).setRxq [0x2A#8, 0x00#8]).rxq = [0x2A#8] ++ [0x00#8] ∧
    ([0x2A#8] : List Byte) ≠ [] ∧ ((fresh (.onBytes 1)).setRxq [0x2A#8, 0x00#8]).lock = .free := 
  ⟨rfl, rfl, by decide, rfl⟩

theorem witness_StepRunsTheDecodedInstruction :
    (fresh (.rx [0x2A#8, 0x00#8, 0x00#8, 0x01#8, 0x03#8])).todo = .rx [0x2A#8, 0x00#8, 0x00#8, 0x01#8, 0x03#8] :: [] ∧
    (fresh (.rx [0x2A#8, 0x00#8, 0x00#8, 0x01#8, 0x03#8])).lock = .free ∧
    decode .inbound [0x2A#8, 0x00#8, 0x00#8, 0x01#8, 0x03#8] = .ok (.ackWriteConfiguration .inbound [], []) ∧
    (fresh (.send 0x04#8 none)).todo = .send 0x04#8 none :: [] ∧
    (fresh (.send 0x04#8 none)).lock = .free := ⟨rfl, rfl, rfl, rfl, rfl⟩

theorem witness_EveryChunkIsProcessedAlike :
    (fresh (.rx [0xFF#8])).todo = .rx [0xFF#8] :: [] ∧ (fresh (.rx [0xFF#8])).lock = .free := 
  ⟨rfl, rfl⟩

theorem witness_StepKeepsTheInvariant :
    ∃ t, StateInv State.reset ∧ step State.reset = .next t := ⟨_, inv_reset, rfl⟩

theorem witness_StepKeepsTheInvariant_faulted :
    StateInv ((State.reset.setPf wedged).setFault true) := 
  ⟨⟨by decide, by decide, by decide, by decide, by decide, by decide⟩, by decide, by decide,
    by decide, by decide, by decide⟩

theorem witness_StepKeepsTheBufferCanonical :
    ∃ t, memoryWf twoOfFour.payload = true ∧
      step (midFrame twoOfFour (.rx [0xCC#8])) = .next t := ⟨_, rfl, rfl⟩

theorem witness_StepKeepsFramesWhole :
    ∃ t, FramesWhole (fresh (.rx [0x2A#8, 0x00#8, 0x00#8, 0x01#8, 0x03#8])) ∧
      step (fresh (.rx [0x2A#8, 0x00#8, 0x00#8, 0x01#8, 0x03#8])) = .next t := 
  ⟨_, (by intro f hf; cases hf), rfl⟩

theorem witness_StepKeepsOneEventPerFrame :
    ∃ t, (fresh (.rx [0x2A#8, 0x00#8, 0x00#8, 0x01#8, 0x03#8])).events =
        (fresh (.rx [0x2A#8, 0x00#8, 0x00#8, 0x01#8, 0x03#8])).emitted.map dispatch ∧
      step (fresh (.rx [0x2A#8, 0x00#8, 0x00#8, 0x01#8, 0x03#8])) = .next t := ⟨_, rfl, rfl⟩

theorem witness_StepNeverStopsUnderTheInvariant : StateInv State.reset := inv_reset

end Sys2Proof.Tests.Slice0
end

/-! PROOFS. The statements about the state (`10_state.md`): which operation changes what of DEC, what
stays as it was, and the invariants that every step keeps. -/

namespace Sys2Proof.Machine

/-! ## What DEC owns, and what a run puts out -/

/-- DEC's PartialFrame and flags and the exclusive access are in `t` as in `s` (R20, R29 to R31,
R35). -/
structure SameDecoder (s t : State) : Prop where
  pf : t.pf = s.pf
  fault : t.decFault = s.decFault
  closed : t.decClosed = s.decClosed
  drop : t.decDrop = s.decDrop
  lock : t.lock = s.lock

/-- No frame was emitted, no event notified and nothing written between `s` and `t`. -/
structure SameOutputs (s t : State) : Prop where
  emitted : t.emitted = s.emitted
  events : t.events = s.events
  written : t.written = s.written

theorem SameDecoder.refl (s : State) : SameDecoder s s := ⟨rfl, rfl, rfl, rfl, rfl⟩

theorem SameOutputs.refl (s : State) : SameOutputs s s := ⟨rfl, rfl, rfl⟩

/-- A result that reports no frame is no output of DEC, ENC or DISP. -/
theorem sameOutputs_addResult (s : State) {r : Result} (h : r.frames = []) :
    SameOutputs s (s.addResult r) :=
  ⟨by rw [State.addResult_emitted, h, List.append_nil], rfl, rfl⟩

/-! ## Close and Reset -/

/-- Everything Close can do (R284, R62). -/
theorem close_cases {s t : State} (h : close s = .next t) :
    (s.lock ≠ .free ∧ t = s) ∨ (s.lock = .free ∧ t = (s.setPf .empty).setClosed true) := by
  unfold close at h
  split at h <;> cases h
  · rename_i hl; exact .inl ⟨hl, rfl⟩
  · rename_i hl; exact .inr ⟨not_not.mp hl, rfl⟩

/-- Everything Reset can do (R281, R62). -/
theorem reset_cases {s t : State} (h : reset s = .next t) :
    (s.lock ≠ .free ∧ t = s) ∨ (s.lock = .free ∧ t = resetDecoder s) := by
  unfold reset at h
  split at h <;> cases h
  · rename_i hl; exact .inl ⟨hl, rfl⟩
  · rename_i hl; exact .inr ⟨not_not.mp hl, rfl⟩

/-! ## A send -/

/-- A send leaves DEC as it was (R26, R132): it gives back the lock it takes. -/
theorem send_sameDecoder {cmd : Byte} {args : Option (List Byte)} {s t : State}
    (h : send cmd args s = .next t) : SameDecoder s t := by
  obtain ⟨_, e⟩ | ⟨_, _, e⟩ | ⟨_, _, _, e⟩ | ⟨_, _, e⟩ := send_cases cmd args s
  all_goals
    rw [e] at h
    cases h
    exact ⟨rfl, rfl, rfl, rfl, rfl⟩

/-- A send leaves the environment's inputs and the events as they were; `rxq` is discarded or kept,
writes and results only grow (R27, R132). -/
theorem send_environment {cmd : Byte} {args : Option (List Byte)} {s t : State}
    (h : send cmd args s = .next t) :
    t.writeAnswer = s.writeAnswer ∧ t.todo = s.todo ∧ t.events = s.events ∧
    (t.rxq = s.rxq ∨ t.rxq = []) ∧ s.written <+: t.written ∧ s.results <+: t.results := by
  obtain ⟨_, e⟩ | ⟨_, _, e⟩ | ⟨_, _, _, e⟩ | ⟨_, _, e⟩ := send_cases cmd args s
  all_goals
    rw [e] at h
    cases h
  · exact ⟨rfl, rfl, rfl, .inl rfl, List.prefix_rfl, List.prefix_append _ _⟩
  · exact ⟨rfl, rfl, rfl, .inl rfl, List.prefix_rfl, List.prefix_append _ _⟩
  · exact ⟨rfl, rfl, rfl, .inl rfl, List.prefix_rfl, List.prefix_rfl⟩
  · exact ⟨rfl, rfl, rfl, .inr rfl, List.prefix_append _ _, List.prefix_append _ _⟩

/-- After Close a send only answers an error (R285, R249). -/
theorem send_closed_sameOutputs {cmd : Byte} {args : Option (List Byte)} {s t : State}
    (h : send cmd args s = .next t) (hc : s.decClosed = true) : SameOutputs s t := by
  obtain ⟨_, e⟩ | ⟨_, _, e⟩ | ⟨_, hopen, _⟩ | ⟨_, ⟨hopen, _⟩, _⟩ := send_cases cmd args s
  · rw [e] at h; cases h; exact sameOutputs_addResult s rfl
  · rw [e] at h; cases h; exact sameOutputs_addResult s rfl
  · rw [hc] at hopen; cases hopen
  · rw [hc] at hopen; cases hopen

/-- Settles O30: an outbound instruction is a send of its payload. -/
theorem outboundFrameRule : Obligations.OutboundFrameRule := by
  intro i s t hd h
  rw [exec_outbound s hd] at h
  obtain ⟨hpf, hfault, hclosed, hdrop, hlock⟩ := send_sameDecoder h
  obtain ⟨hanswer, htodo, hevents, hrxq, hwritten, hresults⟩ := send_environment h
  exact ⟨hpf, fun k => by rw [hpf], hfault, hclosed, hdrop, hlock, hanswer, htodo, hevents, hrxq,
    hwritten, hresults⟩

/-! ## A chunk -/

/-- A chunk leaves all but the PartialFrame, the fault and the outputs of DEC and DISP; it never
clears the fault, and events and results only grow (R27, R150). -/
theorem deliver_frame {chunk : List Byte} {s t : State} (h : deliver chunk s = .next t) :
    t.decClosed = s.decClosed ∧ t.decDrop = s.decDrop ∧ t.lock = s.lock ∧ t.rxq = s.rxq ∧
    t.writeAnswer = s.writeAnswer ∧ t.todo = s.todo ∧ t.written = s.written ∧
    s.events <+: t.events ∧ s.results <+: t.results ∧
    (s.decFault = true → t.decFault = true) := by
  obtain ⟨_, rfl⟩ | ⟨_, rfl⟩ | ⟨_, pf, fs, ⟨_, rfl⟩ | ⟨_, rfl⟩ | ⟨_, rfl⟩⟩ := deliver_cases h
  all_goals simp

/-- The bytes of one frame drain into an empty DEC and leave no payload slot with a value: with a
payload the frame is emitted (R159), without one DEC waits in state 4 (R155). -/
theorem runBytes_frame_drained (code : Byte) {p : List Byte} (h : p.length ≤ Config.maxPayload) :
    ∃ pf fs, runBytes (frameBytes code p) .empty = (pf, fs, .drained) ∧ pf.payload = [] := by
  rw [← List.append_nil (frameBytes code p)]
  by_cases hp : p = []
  · subst hp
    exact ⟨_, _, runBytes_header code [] [], rfl⟩
  · exact ⟨_, _, runBytes_frame code p [] hp h, rfl⟩

/-- One whole frame delivered to a ready machine leaves the fault and every payload slot. -/
theorem deliver_frameBytes_ready {code : Byte} {p : List Byte} {s t : State} (hr : Ready s)
    (hp : p.length ≤ Config.maxPayload) (h : deliver (frameBytes code p) s = .next t) :
    t.decFault = s.decFault ∧ t.pf.payload = s.pf.payload := by
  obtain ⟨pf, fs, hb, hempty⟩ := runBytes_frame_drained code hp
  rw [deliver_open _ hr.toOpen, hr.atStart, hb] at h
  cases h
  exact ⟨rfl, by rw [hr.atStart]; exact hempty⟩

/-- An inbound instruction that answers a next state is the delivery of its bytes. -/
theorem exec_inbound_next {i : Instr} {s t : State} (hd : i.dir = .inbound)
    (h : exec i s = .next t) :
    i.payload.length ≤ Config.maxPayload ∧ deliver (encode i) s = .next t := by
  rcases Nat.lt_or_ge Config.maxPayload i.payload.length with hlt | hle
  · rw [exec_eq, hd] at h
    simp [receive, hlt] at h
  · exact ⟨hle, by rw [← exec_inbound s hd hle]; exact h⟩

/-- Settles O26: an inbound instruction is the delivery of its bytes as one chunk. -/
theorem inboundFrameRule : Obligations.InboundFrameRule := by
  intro i s t hd h
  obtain ⟨hp, hdel⟩ := exec_inbound_next hd h
  obtain ⟨hclosed, hdrop, hlock, hrxq, hanswer, htodo, hwritten, hevents, hresults, hfault⟩ :=
    deliver_frame hdel
  refine ⟨hclosed, hdrop, hlock, hrxq, hanswer, htodo, hwritten, hevents, hresults, hfault, ?_⟩
  intro hr
  obtain ⟨hf, hslots⟩ := deliver_frameBytes_ready hr hp hdel
  exact ⟨hf, fun k => by rw [hslots]⟩

/-! ## One action -/

/-- What one action can do to DEC: take a chunk (from `rx`, or off the queue by `onBytes`) or a byte
of one, Close, Reset; or send, or do something that touches neither DEC nor the outputs. -/
theorem perform_decoder_cases {a : Action} {s t : State} (h : perform a s = .next t) :
    (((∃ chunk, a = .rx chunk) ∨ ∃ n, a = .onBytes n) ∧
      ∃ chunk q, deliver chunk (s.setRxq q) = .next t) ∨
    (∃ b last, a = .byteIn b last ∧ byteIn b last s = .next t) ∨
    (a = .close ∧ s.lock = .free ∧ t = (s.setPf .empty).setClosed true) ∨
    (a = .reset ∧ t = resetDecoder s) ∨
    (∃ cmd args, send cmd args s = .next t) ∨
    (SameDecoder s t ∧ SameOutputs s t) := by
  obtain ⟨chunk, ha, hdel⟩ | hbyte | ⟨n, ha, rfl | hdel⟩ | ⟨cmd, args, _, hsend⟩ | ⟨q, _, rfl⟩ |
    ⟨w, _, rfl⟩ | ⟨ha, hclose⟩ | ⟨ha, hreset⟩ | ⟨r, hr, rfl, _⟩ := perform_cases h
  · exact .inl ⟨.inl ⟨chunk, ha⟩, chunk, s.rxq, hdel⟩
  · exact .inr (.inl hbyte)
  · exact .inr (.inr (.inr (.inr (.inr ⟨.refl t, .refl t⟩))))
  · exact .inl ⟨.inr ⟨n, ha⟩, _, _, hdel⟩
  · exact .inr (.inr (.inr (.inr (.inl ⟨cmd, args, hsend⟩))))
  · exact .inr (.inr (.inr (.inr (.inr ⟨⟨rfl, rfl, rfl, rfl, rfl⟩, rfl, rfl, rfl⟩))))
  · exact .inr (.inr (.inr (.inr (.inr ⟨⟨rfl, rfl, rfl, rfl, rfl⟩, rfl, rfl, rfl⟩))))
  · obtain ⟨_, rfl⟩ | ⟨hl, ht⟩ := close_cases hclose
    · exact .inr (.inr (.inr (.inr (.inr ⟨.refl t, .refl t⟩))))
    · exact .inr (.inr (.inl ⟨ha, hl, ht⟩))
  · obtain ⟨_, rfl⟩ | ⟨_, ht⟩ := reset_cases hreset
    · exact .inr (.inr (.inr (.inr (.inr ⟨.refl t, .refl t⟩))))
    · exact .inr (.inr (.inr (.inl ⟨ha, ht⟩)))
  · exact .inr (.inr (.inr (.inr (.inr ⟨⟨rfl, rfl, rfl, rfl, rfl⟩,
      sameOutputs_addResult s hr⟩))))

/-- A property of states that the plan has no part in is kept by every step, if every action keeps
it. -/
theorem step_induct {P : State → Prop} (plan : ∀ s l, P s → P (s.setTodo l))
    (act : ∀ a s t, perform a s = .next t → P s → P t) {s t : State} (h : step s = .next t)
    (hp : P s) : P t := by
  obtain ⟨_, rfl⟩ | ⟨a, rest, _, ha⟩ := step_cases h
  · exact hp
  · exact act a _ t ha (plan s rest hp)

/-! ## The PartialFrame -/

/-- Settles O43: a send and a pure call leave DEC as it was, and what is left is the receiver's. -/
theorem onlyTheReceiverChangesThePartialFrame :
    Obligations.OnlyTheReceiverChangesThePartialFrame := by
  intro s t h hne
  obtain ⟨_, rfl⟩ | ⟨a, rest, ht, ha⟩ := step_cases h
  · exact absurd rfl hne
  · refine ⟨a, rest, ht, ?_⟩
    obtain ⟨hrx | hon, _⟩ | ⟨b, last, hbyte, _⟩ | ⟨hclose, _⟩ | ⟨hreset, _⟩ | ⟨_, _, hsend⟩ |
      ⟨hsame, _⟩ := perform_decoder_cases ha
    · exact .inr (.inr (.inl hrx))
    · exact .inr (.inr (.inr (.inr hon)))
    · exact .inr (.inr (.inr (.inl ⟨b, last, hbyte⟩)))
    · exact .inl hclose
    · exact .inr (.inl hreset)
    · exact absurd (send_sameDecoder hsend).pf hne
    · exact absurd hsame.pf hne

section Induction

variable {P : PartialFrame → Prop}
  (byte : ∀ b pf pf' r, decByte b pf = (pf', r) → P pf → P pf')

include byte

/-- A property of the PartialFrame that every byte keeps, a chunk keeps. -/
theorem deliver_pf_induct {chunk : List Byte} {s t : State} (h : deliver chunk s = .next t)
    (hp : P s.pf) : P t.pf := by
  obtain ⟨_, rfl⟩ | ⟨_, rfl⟩ | ⟨_, pf, fs, ⟨hb, rfl⟩ | ⟨hb, rfl⟩ | ⟨hb, rfl⟩⟩ := deliver_cases h
  · exact hp
  · exact hp
  all_goals exact runBytes_induct byte hb hp

/-- A property of the PartialFrame that every byte of DEC keeps, the byte-serial form keeps. -/
theorem byteIn_pf_induct {b : Byte} {last : Bool} {s t : State} (h : byteIn b last s = .next t)
    (hp : P s.pf) : P t.pf := by
  obtain ⟨_, rfl⟩ | ⟨_, rfl⟩ | ⟨_, _, _, _, rfl⟩ |
    ⟨_, _, _, _, pf, ⟨hb, rfl⟩ | ⟨f, hb, rfl⟩ | ⟨hb, rfl⟩ | ⟨hb, rfl⟩⟩ := byteIn_cases h
  · rwa [endTransfer_pf]
  · exact hp
  · rwa [endTransfer_pf]
  all_goals
    rw [endTransfer_pf]
    exact byte _ _ _ _ hb hp

/-- A property of the PartialFrame that the empty one has and every byte keeps, every action
keeps. -/
theorem perform_pf_induct (empty : P .empty) {a : Action} {s t : State}
    (h : perform a s = .next t) (hp : P s.pf) : P t.pf := by
  obtain ⟨_, chunk, q, hdel⟩ | ⟨b, last, _, hbyte⟩ | ⟨_, _, rfl⟩ | ⟨_, rfl⟩ | ⟨_, _, hsend⟩ |
    ⟨hsame, _⟩ := perform_decoder_cases h
  · exact deliver_pf_induct byte hdel hp
  · exact byteIn_pf_induct byte hbyte hp
  · exact empty
  · exact empty
  · rwa [(send_sameDecoder hsend).pf]
  · rwa [hsame.pf]

end Induction

/-- Settles O57: the empty buffer is in canonical form and every byte keeps it. -/
theorem stepKeepsTheBufferCanonical : Obligations.StepKeepsTheBufferCanonical := by
  intro s t hw h
  exact step_induct (P := fun u => memoryWf u.pf.payload = true) (fun _ _ hp => hp)
    (fun _ _ _ => perform_pf_induct (P := fun pf => memoryWf pf.payload = true)
      (fun _ _ _ _ => decByte_memoryWf) rfl) h hw

/-! ## The fault and Close -/

/-- After Close or after the fault a byte of a chunk only ends its transfer (R166). -/
theorem byteIn_refused {b : Byte} {last : Bool} {s t : State} (h : byteIn b last s = .next t)
    (hr : s.decClosed = true ∨ s.decFault = true) : t = endTransfer last s := by
  have : (s.decClosed || s.decFault) = true := by simpa using hr
  simp only [byteIn, this, if_true] at h
  cases h
  rfl

/-- Every action but Reset keeps the fault (R29, R247). -/
theorem perform_keeps_fault {a : Action} {s t : State} (h : perform a s = .next t)
    (hf : s.decFault = true) : t.decFault = true ∨ a = .reset := by
  obtain ⟨_, chunk, q, hdel⟩ | ⟨b, last, _, hbyte⟩ | ⟨_, _, rfl⟩ | ⟨ha, _⟩ | ⟨_, _, hsend⟩ |
    ⟨hsame, _⟩ := perform_decoder_cases h
  · rw [deliver_refused (s := s.setRxq q) chunk (.inr hf)] at hdel
    cases hdel
    exact .inl hf
  · rw [byteIn_refused hbyte (.inr hf), endTransfer_decFault]
    exact .inl hf
  · exact .inl hf
  · exact .inr ha
  · exact .inl ((send_sameDecoder hsend).fault.trans hf)
  · exact .inl (hsame.fault.trans hf)

/-- Settles O45: no action but Reset clears the fault. -/
theorem onlyResetClearsTheFault : Obligations.OnlyResetClearsTheFault := by
  intro s t h hf
  obtain ⟨_, rfl⟩ | ⟨a, rest, ht, ha⟩ := step_cases h
  · exact .inl hf
  · obtain hf' | rfl := perform_keeps_fault ha hf
    · exact .inl hf'
    · exact .inr ⟨rest, ht⟩

/-- After Close every action but Reset leaves the machine closed and puts nothing out (R30, R285). -/
theorem perform_closed {a : Action} {s t : State} (h : perform a s = .next t)
    (hc : s.decClosed = true) : (t.decClosed = true ∧ SameOutputs s t) ∨ a = .reset := by
  obtain ⟨_, chunk, q, hdel⟩ | ⟨b, last, _, hbyte⟩ | ⟨_, _, rfl⟩ | ⟨ha, _⟩ | ⟨_, _, hsend⟩ |
    ⟨hsame, hout⟩ := perform_decoder_cases h
  · rw [deliver_refused (s := s.setRxq q) chunk (.inl hc)] at hdel
    cases hdel
    obtain ⟨hemitted, hevents, hwritten⟩ :=
      sameOutputs_addResult (s.setRxq q) (Result.frames_error .refused)
    exact .inl ⟨hc, hemitted, hevents, hwritten⟩
  · rw [byteIn_refused hbyte (.inl hc)]
    exact .inl ⟨by rw [endTransfer_decClosed, hc], endTransfer_emitted s last,
      endTransfer_events s last, endTransfer_written s last⟩
  · exact .inl ⟨rfl, rfl, rfl, rfl⟩
  · exact .inr ha
  · exact .inl ⟨(send_sameDecoder hsend).closed.trans hc, send_closed_sameOutputs hsend hc⟩
  · exact .inl ⟨hsame.closed.trans hc, hout⟩

/-- Settles O46: no action but Reset reopens a closed machine or lets it put anything out. -/
theorem closeIsTerminalUntilReset : Obligations.CloseIsTerminalUntilReset := by
  intro s t h hc
  obtain ⟨_, rfl⟩ | ⟨a, rest, ht, ha⟩ := step_cases h
  · exact .inl ⟨hc, rfl, rfl, rfl⟩
  · obtain ⟨hc', hemitted, hevents, hwritten⟩ | rfl := perform_closed ha hc
    · exact .inl ⟨hc', hemitted, hevents, hwritten⟩
    · exact .inr ⟨rest, ht⟩

/-! ## The invariant of the machine -/

/-- The invariant speaks of DEC and the lock only. -/
theorem StateInv.congr {s t : State} (hi : StateInv s) (h : SameDecoder s t) : StateInv t := by
  obtain ⟨hpf, hfault, hclosed, hdrop, hlock⟩ := h
  obtain ⟨ipf, idrop, isend, iempty, iclosed, ifault⟩ := hi
  constructor <;> simpa only [hpf, hfault, hclosed, hdrop, hlock]

/-- The invariant of a machine that is not closed: DEC drops bytes only while a byte-serial chunk is
in progress and with the PartialFrame empty (R166), and is faulted only wedged (R157). -/
theorem stateInv_of_notClosed {t : State} (hc : t.decClosed = false) (hpf : PfInv t.pf)
    (hl : t.lock ≠ .tx) (hdrop : t.decDrop = false ∨ t.lock = .rx ∧ t.pf = .empty)
    (hfault : t.decFault = false ∨ isWedged t.pf = true) : StateInv t where
  pf := hpf
  dropClear hfree := by
    obtain hd | ⟨hrx, _⟩ := hdrop
    · exact hd
    · rw [hfree] at hrx; cases hrx
  noSend := hl
  dropEmpty hd := by
    obtain hd' | ⟨_, he⟩ := hdrop
    · rw [hd'] at hd; cases hd
    · exact he
  closedEmpty hc' := by rw [hc] at hc'; cases hc'
  faultWedged hf := by
    obtain hf' | hw := hfault
    · rw [hf'] at hf; cases hf
    · exact .inr hw

/-- A chunk keeps the invariant: the loop keeps R38 and overruns only when wedged. -/
theorem deliver_stateInv {chunk : List Byte} {s t : State} (h : deliver chunk s = .next t)
    (hi : StateInv s) : StateInv t := by
  have hpf : PfInv t.pf := deliver_pf_induct (fun _ _ _ _ hd hp => (decByte_pfInv hd hp).1) h hi.pf
  obtain ⟨_, rfl⟩ | ⟨_, rfl⟩ | ⟨ho, pf, fs, hends⟩ := deliver_cases h
  · exact hi.congr ⟨rfl, rfl, rfl, rfl, rfl⟩
  · exact hi
  · have hdrop := hi.dropClear ho.lockFree
    obtain ⟨_, rfl⟩ | ⟨_, rfl⟩ | ⟨hb, rfl⟩ := hends
    · exact stateInv_of_notClosed ho.notClosed hpf hi.noSend (.inl hdrop) (.inl ho.noFault)
    · exact stateInv_of_notClosed ho.notClosed hpf hi.noSend (.inl hdrop) (.inl ho.noFault)
    · obtain ⟨_, hwedged, _⟩ := runBytes_end hb hi.pf
      exact stateInv_of_notClosed ho.notClosed hpf hi.noSend (.inl hdrop) (.inr (hwedged rfl))

/-- The end of a byte's transfer keeps the invariant (R166). -/
theorem endTransfer_stateInv {s : State} (last : Bool) (hi : StateInv s) :
    StateInv (endTransfer last s) := by
  obtain ⟨_, e⟩ | ⟨_, _, e⟩ | ⟨_, _, e⟩ := endTransfer_cases last s <;> rw [e]
  · exact hi
  · exact ⟨hi.pf, fun _ => rfl, by simp, by simp, fun hc => ⟨(hi.closedEmpty hc).1, rfl⟩,
      hi.faultWedged⟩
  · exact ⟨hi.pf, fun _ => rfl, hi.noSend, by simp, hi.closedEmpty, hi.faultWedged⟩

/-- A byte of a chunk keeps the invariant: it does so before its transfer ends, with the lock
taken. -/
theorem byteIn_stateInv {b : Byte} {last : Bool} {s t : State} (h : byteIn b last s = .next t)
    (hi : StateInv s) : StateInv t := by
  obtain ⟨_, rfl⟩ | ⟨_, rfl⟩ | ⟨hc, hf, _, hd, rfl⟩ | ⟨hc, hf, _, hd, pf, hbyte⟩ := byteIn_cases h
  · exact endTransfer_stateInv last hi
  · exact hi
  · exact endTransfer_stateInv last
      (stateInv_of_notClosed hc hi.pf (by simp) (.inr ⟨rfl, hi.dropEmpty hd⟩) (.inl hf))
  · obtain ⟨hb, rfl⟩ | ⟨f, hb, rfl⟩ | ⟨hb, rfl⟩ | ⟨hb, rfl⟩ := hbyte
    all_goals
      have hpf : PfInv pf := (decByte_pfInv hb hi.pf).1
      apply endTransfer_stateInv
    · exact stateInv_of_notClosed hc hpf (by simp) (.inl hd) (.inl hf)
    · exact stateInv_of_notClosed hc hpf (by simp) (.inl hd) (.inl hf)
    · exact stateInv_of_notClosed hc hpf (by simp) (.inr ⟨rfl, decByte_desync_empty hb⟩) (.inl hf)
    · obtain ⟨rfl, hw⟩ := decByte_overrun_wedged hb hi.pf
      exact stateInv_of_notClosed hc hpf (by simp) (.inl hd) (.inr hw)

/-- Close keeps the invariant: the PartialFrame is empty and the lock free (R284). -/
theorem closed_stateInv {s : State} (hl : s.lock = .free) (hi : StateInv s) :
    StateInv ((s.setPf .empty).setClosed true) :=
  ⟨pfInv_empty, hi.dropClear, hi.noSend, fun _ => rfl, fun _ => ⟨rfl, hl⟩, fun _ => .inl rfl⟩

/-- Reset makes the invariant, whatever the state was (R280). -/
theorem resetDecoder_stateInv (s : State) : StateInv (resetDecoder s) :=
  stateInv_of_notClosed rfl pfInv_empty (by simp [resetDecoder]) (.inl rfl) (.inl rfl)

/-- Every action keeps the invariant. -/
theorem perform_stateInv {a : Action} {s t : State} (h : perform a s = .next t)
    (hi : StateInv s) : StateInv t := by
  obtain ⟨_, chunk, q, hdel⟩ | ⟨b, last, _, hbyte⟩ | ⟨_, hl, rfl⟩ | ⟨_, rfl⟩ | ⟨_, _, hsend⟩ |
    ⟨hsame, _⟩ := perform_decoder_cases h
  · exact deliver_stateInv hdel (hi.congr ⟨rfl, rfl, rfl, rfl, rfl⟩)
  · exact byteIn_stateInv hbyte hi
  · exact closed_stateInv hl hi
  · exact resetDecoder_stateInv s
  · exact hi.congr (send_sameDecoder hsend)
  · exact hi.congr hsame

/-- Settles O56: every action keeps the invariant, and the plan has no part in it. -/
theorem stepKeepsTheInvariant : Obligations.StepKeepsTheInvariant := by
  intro s t hi h
  exact step_induct (fun _ _ hp => hp.congr ⟨rfl, rfl, rfl, rfl, rfl⟩)
    (fun _ _ _ => perform_stateInv) h hi

end Sys2Proof.Machine

/-! PROOFS. The statements about the stores (`20_memory.md`): what a step adds to the emitted frames,
who waits for the exclusive access, and why a send and a chunk do not meet. -/

namespace Sys2Proof.Machine

/-! ## The frames a step reports -/

/-- Between `s` and `t` DEC has emitted the frames `fs`, each one whole (R163) and given to `Dispatch`
once (R60). -/
structure Reports (s t : State) (fs : List Frame) : Prop where
  emitted : t.emitted = s.emitted ++ fs
  events : t.events = s.events ++ fs.map dispatch
  whole : ∀ f ∈ fs, f.whole = true

theorem Reports.none {s t : State} (hemitted : t.emitted = s.emitted) (hevents : t.events = s.events) :
    Reports s t [] :=
  ⟨by simp [hemitted], by simp [hevents], by simp⟩

/-- Whole frames stay whole when whole frames join them. -/
theorem Reports.framesWhole {s t : State} {fs : List Frame} (h : Reports s t fs)
    (hs : FramesWhole s) : FramesWhole t := by
  intro f hf
  rw [h.emitted, List.mem_append] at hf
  obtain hold | hnew := hf
  · exact hs f hold
  · exact h.whole f hnew

/-- A send emits no frame and notifies no event (R132). -/
theorem send_emits_nothing {cmd : Byte} {args : Option (List Byte)} {s t : State}
    (h : send cmd args s = .next t) : t.emitted = s.emitted ∧ t.events = s.events := by
  obtain ⟨_, e⟩ | ⟨_, _, e⟩ | ⟨_, _, _, e⟩ | ⟨_, _, e⟩ := send_cases cmd args s
  all_goals
    rw [e] at h
    cases h
    simp [State.afterSend]

/-- A chunk reports the frames of its loop (R150), or none when it is refused or waits. -/
theorem deliver_reports {chunk : List Byte} {s t : State} (h : deliver chunk s = .next t) :
    ∃ fs, Reports s t fs := by
  obtain ⟨_, rfl⟩ | ⟨_, rfl⟩ | ⟨_, pf, fs, hends⟩ := deliver_cases h
  · exact ⟨[], .none (by simp) rfl⟩
  · exact ⟨[], .none rfl rfl⟩
  · refine ⟨fs, ?_⟩
    obtain ⟨hb, rfl⟩ | ⟨hb, rfl⟩ | ⟨hb, rfl⟩ := hends
    all_goals exact ⟨by simp, by simp, runBytes_whole hb⟩

/-- A byte of a chunk reports the one frame it completes, or none (R166). -/
theorem byteIn_reports {b : Byte} {last : Bool} {s t : State} (h : byteIn b last s = .next t) :
    ∃ fs, Reports s t fs := by
  obtain ⟨_, rfl⟩ | ⟨_, rfl⟩ | ⟨_, _, _, _, rfl⟩ | ⟨_, _, _, _, pf, hbyte⟩ := byteIn_cases h
  · exact ⟨[], .none (by simp) (by simp)⟩
  · exact ⟨[], .none rfl rfl⟩
  · exact ⟨[], .none (by simp) (by simp)⟩
  · obtain ⟨_, rfl⟩ | ⟨f, hb, rfl⟩ | ⟨_, rfl⟩ | ⟨_, rfl⟩ := hbyte
    · exact ⟨[], .none (by simp) (by simp)⟩
    · exact ⟨[f], by simp, by simp, by simpa using (decByte_emit hb).1⟩
    · exact ⟨[], .none (by simp) (by simp)⟩
    · exact ⟨[], .none (by simp) (by simp)⟩

/-- Every action reports a list of whole frames: only the two forms of a chunk report any. -/
theorem perform_reports {a : Action} {s t : State} (h : perform a s = .next t) :
    ∃ fs, Reports s t fs := by
  obtain ⟨_, chunk, q, hdel⟩ | ⟨b, last, _, hbyte⟩ | ⟨_, _, rfl⟩ | ⟨_, rfl⟩ | ⟨_, _, hsend⟩ |
    ⟨_, hout⟩ := perform_decoder_cases h
  · obtain ⟨fs, hemitted, hevents, hwhole⟩ := deliver_reports hdel
    exact ⟨fs, hemitted, hevents, hwhole⟩
  · exact byteIn_reports hbyte
  · exact ⟨[], .none rfl rfl⟩
  · exact ⟨[], .none rfl rfl⟩
  · obtain ⟨hemitted, hevents⟩ := send_emits_nothing hsend
    exact ⟨[], .none hemitted hevents⟩
  · exact ⟨[], .none hout.emitted hout.events⟩

/-- Settles O58: a step adds whole frames only, and the plan has no part in the emitted frames. -/
theorem stepKeepsFramesWhole : Obligations.StepKeepsFramesWhole := by
  intro s t hs h
  refine step_induct (P := FramesWhole) (fun _ _ hp => hp) (fun a s t ha hp => ?_) h hs
  obtain ⟨_, hreports⟩ := perform_reports ha
  exact hreports.framesWhole hp

/-! ## Waiting for the exclusive access -/

/-- With the lock taken a chunk, a send whose argument fits, Close and Reset are not ready (R62). -/
theorem not_ready_of_lock_taken {s : State} {a : Action} (hl : s.lock ≠ .free)
    (hc : s.decClosed = false) (hf : s.decFault = false)
    (ha : a = .close ∨ a = .reset ∨ (∃ chunk, a = .rx chunk) ∨
      ∃ cmd args, args.length ≤ 65535 ∧ a = .send cmd (some args)) : ready s a = false := by
  obtain rfl | rfl | ⟨chunk, rfl⟩ | ⟨cmd, args, hfits, rfl⟩ := ha
  · simpa [ready] using hl
  · simpa [ready] using hl
  · simpa [ready, chunkReady, hc, hf] using hl
  · simp [ready, sendReady, argBytes, Config.maxPayload, hc, hl, Nat.not_lt.mpr hfits]

/-- With the lock free every action is ready (R62). -/
theorem ready_of_lock_free {s : State} (a : Action) (hl : s.lock = .free) : ready s a = true := by
  cases a <;> simp [ready, chunkReady, byteReady, sendReady, hl]

/-- A step whose only action waits changes nothing. -/
theorem step_of_waiting {s : State} {a : Action} (ht : s.todo = [a]) (hr : ready s a = false) :
    step s = .next s := by
  simp [step, ht, takeReady, hr]

/-- Settles O50: the operation is not ready, so the step takes no action. -/
theorem operationsWaitForTheLock : Obligations.OperationsWaitForTheLock := by
  intro s a ht hl hc hf ha
  exact step_of_waiting ht (not_ready_of_lock_taken hl hc hf ha)

/-! ## A send and a chunk -/

/-- The receiver's part of the state, with the frames and events it puts out, is in `t` as in `s`. -/
structure SameReceiver (s t : State) : Prop extends SameDecoder s t where
  emitted : t.emitted = s.emitted
  events : t.events = s.events

/-- What a send reads and writes is in `t` as in `s` (R132). -/
structure SameSender (s t : State) : Prop where
  closed : t.decClosed = s.decClosed
  lock : t.lock = s.lock
  writeAnswer : t.writeAnswer = s.writeAnswer
  rxq : t.rxq = s.rxq
  written : t.written = s.written

/-- A send leaves the receiver's part alone. -/
theorem send_sameReceiver {cmd : Byte} {args : Option (List Byte)} {s t : State}
    (h : send cmd args s = .next t) : SameReceiver s t := by
  obtain ⟨hemitted, hevents⟩ := send_emits_nothing h
  exact ⟨send_sameDecoder h, hemitted, hevents⟩

/-- A chunk leaves the sender's part alone. -/
theorem deliver_sameSender {chunk : List Byte} {s t : State} (h : deliver chunk s = .next t) :
    SameSender s t := by
  obtain ⟨hclosed, _, hlock, hrxq, hanswer, _, hwritten, _⟩ := deliver_frame h
  exact ⟨hclosed, hlock, hanswer, hrxq, hwritten⟩

/-- What the loop of a chunk leaves of the receiver's part depends on that part only. -/
theorem afterChunk_sameReceiver {s s' t t' : State} {r : PartialFrame × List Frame × ChunkEnd}
    (hs : SameReceiver s s') (h : afterChunk s r = .next t) (h' : afterChunk s' r = .next t') :
    SameReceiver t t' := by
  obtain ⟨⟨_, hfault, hclosed, hdrop, hlock⟩, hemitted, hevents⟩ := hs
  obtain ⟨pf, fs, e⟩ := r
  cases e with
  | noValue i => cases h
  | drained | desync | overrun =>
    cases h
    cases h'
    constructor
    · constructor <;> simp [hfault, hclosed, hdrop, hlock]
    · simp [hemitted]
    · simp [hevents]

/-- What a chunk leaves of the receiver's part depends on that part only (R150, R171). -/
theorem deliver_congr {chunk : List Byte} {s s' t t' : State} (hs : SameReceiver s s')
    (hl : s.lock = .free) (h : deliver chunk s = .next t) (h' : deliver chunk s' = .next t') :
    SameReceiver t t' := by
  obtain ⟨⟨hpf, hfault, hclosed, hdrop, hlock⟩, hemitted, hevents⟩ := id hs
  by_cases hr : s.decClosed = true ∨ s.decFault = true
  · rw [deliver_refused chunk hr] at h
    rw [deliver_refused chunk (by rwa [hclosed, hfault])] at h'
    cases h
    cases h'
    exact ⟨⟨hpf, hfault, hclosed, hdrop, hlock⟩, by simp [hemitted], hevents⟩
  · simp only [not_or, Bool.not_eq_true] at hr
    obtain ⟨hc, hf⟩ := hr
    rw [deliver_open chunk ⟨hc, hf, hl⟩] at h
    rw [deliver_open chunk ⟨hclosed.trans hc, hfault.trans hf, hlock.trans hl⟩, hpf] at h'
    exact afterChunk_sameReceiver hs h h'

/-- A send that finds the lock free does not wait (R132, R252 (c)). -/
theorem send_of_lock_free {s : State} (cmd : Byte) (args : Option (List Byte))
    (hl : s.lock = .free) :
    send cmd args s = .next
      (if Config.maxPayload < (argBytes args).length then s.addResult (.error .argumentTooLarge)
        else if s.decClosed then s.addResult (.error .refused)
        else s.afterSend cmd (argBytes args)) := by
  obtain ⟨hlong, e⟩ | ⟨hfits, hc, e⟩ | ⟨_, _, hwait, _⟩ | ⟨hfits, ⟨hc, _⟩, e⟩ :=
    send_cases cmd args s
  · rw [e, if_pos hlong]
  · rw [e, if_neg (Nat.not_lt.mpr hfits), if_pos hc]
  · exact absurd hl hwait
  · rw [e, if_neg (Nat.not_lt.mpr hfits), if_neg (by simp [hc])]

/-- What a send leaves of the sender's part depends on that part only (R132). -/
theorem send_congr {cmd : Byte} {args : Option (List Byte)} {s s' t t' : State}
    (hs : SameSender s s') (hl : s.lock = .free) (h : send cmd args s = .next t)
    (h' : send cmd args s' = .next t') : SameSender t t' := by
  obtain ⟨hclosed, hlock, hanswer, hrxq, hwritten⟩ := id hs
  rw [send_of_lock_free cmd args hl] at h
  rw [send_of_lock_free cmd args (hlock.trans hl), hclosed] at h'
  cases h
  cases h'
  split_ifs
  · exact ⟨hclosed, hlock, hanswer, hrxq, hwritten⟩
  · exact ⟨hclosed, hlock, hanswer, hrxq, hwritten⟩
  · exact ⟨hclosed, hlock, hanswer, rfl, by simp [State.afterSend, hanswer, hwritten]⟩

/-- A run of two steps over a plan of two actions performs them in turn, when the first touches
neither the plan nor the lock. -/
theorem runSteps_two_actions {s u : State} {a b : Action} (hl : s.lock = .free)
    (hkeep : ∀ m, perform a (s.setTodo [b]) = .next m → m.todo = [b] ∧ m.lock = .free)
    (h : runSteps 2 (s.setTodo [a, b]) = .next u) :
    ∃ m, perform a (s.setTodo [b]) = .next m ∧ perform b (m.setTodo []) = .next u := by
  obtain ⟨m, hm, hrest⟩ := runSteps_first h
  obtain ⟨v, hv, hend⟩ := runSteps_first hrest
  cases hend
  have ha : perform a (s.setTodo [b]) = .next m := by
    rw [← hm, step_first (s := s.setTodo [a, b]) rfl (ready_of_lock_free a hl)]
    rfl
  obtain ⟨htodo, hlock⟩ := hkeep m ha
  exact ⟨m, ha, by rw [← hv, step_first htodo (ready_of_lock_free b hlock)]⟩

/-- With the lock free a send planned before a chunk is run before it (R60). -/
theorem runSteps_send_chunk {s t : State} {chunk : List Byte} {cmd : Byte}
    {args : Option (List Byte)} (hl : s.lock = .free)
    (h : runSteps 2 (s.setTodo [.send cmd args, .rx chunk]) = .next t) :
    ∃ m, send cmd args (s.setTodo [.rx chunk]) = .next m ∧
      deliver chunk (m.setTodo []) = .next t := by
  simp only [← exec_sendInstr, ← runChunk_eq_deliver]
  refine runSteps_two_actions hl (fun m hm => ?_) h
  rw [perform, exec_sendInstr] at hm
  obtain ⟨_, htodo, _⟩ := send_environment hm
  exact ⟨htodo, (send_sameDecoder hm).lock.trans hl⟩

/-- With the lock free a chunk planned before a send is run before it (R60). -/
theorem runSteps_chunk_send {s t : State} {chunk : List Byte} {cmd : Byte}
    {args : Option (List Byte)} (hl : s.lock = .free)
    (h : runSteps 2 (s.setTodo [.rx chunk, .send cmd args]) = .next t) :
    ∃ m, deliver chunk (s.setTodo [.send cmd args]) = .next m ∧
      send cmd args (m.setTodo []) = .next t := by
  simp only [← exec_sendInstr, ← runChunk_eq_deliver]
  refine runSteps_two_actions hl (fun m hm => ?_) h
  rw [perform, runChunk_eq_deliver] at hm
  obtain ⟨_, _, hlock, _, _, htodo, _⟩ := deliver_frame hm
  exact ⟨htodo, hlock.trans hl⟩

/-- Settles O51: each operation leaves the other's part alone and depends on its own part only. -/
theorem sendAndChunkCommute : Obligations.SendAndChunkCommute := by
  intro s t u chunk cmd args hl ht hu
  obtain ⟨m, hsend, hdeliver⟩ := runSteps_send_chunk hl ht
  obtain ⟨n, hdeliver', hsend'⟩ := runSteps_chunk_send hl hu
  have hreceiver : SameReceiver n t := by
    have hm := send_sameReceiver hsend
    exact deliver_congr (s := s.setTodo [.send cmd args]) (s' := m.setTodo [])
      ⟨⟨hm.pf, hm.fault, hm.closed, hm.drop, hm.lock⟩, hm.emitted, hm.events⟩ hl hdeliver' hdeliver
  have hsender : SameSender m u := by
    have hn := deliver_sameSender hdeliver'
    exact send_congr (s := s.setTodo [.rx chunk]) (s' := n.setTodo [])
      ⟨hn.closed, hn.lock, hn.writeAnswer, hn.rxq, hn.written⟩ hl hsend hsend'
  obtain ⟨⟨hpf, hfault, hclosed, _, hlock⟩, hemitted, hevents⟩ := send_sameReceiver hsend'
  obtain ⟨_, _, _, hrxq, hwritten⟩ := deliver_sameSender hdeliver
  exact ⟨hreceiver.pf.trans hpf.symm, hreceiver.emitted.trans hemitted.symm,
    hreceiver.events.trans hevents.symm, hreceiver.fault.trans hfault.symm,
    hreceiver.closed.trans hclosed.symm, hreceiver.lock.trans hlock.symm,
    hrxq.trans hsender.rxq.symm, hwritten.trans hsender.written.symm⟩

end Sys2Proof.Machine

/-! PROOFS. The statements about the encoding (`30_encoding.md`): the type codes, what the decoder
makes of a frame's bytes and of other bytes, and the round trips between instructions and bytes. -/

namespace Sys2Proof.Machine

/-! ## Type codes (R83 to R85) -/

theorem isAssignedCode_iff (b : Byte) :
    isAssignedCode b = true ↔ (b.toNat ≤ 12 ∨ b.toNat = 50 ∨ b.toNat = 51) := by
  simp [isAssignedCode, or_assoc]

theorem cmdOf_eq_unknown_iff_not_code (b : Byte) :
    cmdOf b = .unknown ↔ ¬(b.toNat ≤ 12 ∨ b.toNat = 50 ∨ b.toNat = 51) := by
  rw [cmdOf_unknown_iff, ← isAssignedCode_iff, Bool.not_eq_true]

/-- `CmdOf` undoes `CodeOf` on every named member (R85). -/
theorem cmdOf_codeOf {c : CommandType} (h : c ≠ .unknown) : (codeOf c).map cmdOf = some c := by
  cases c with
  | unknown => exact absurd rfl h
  | _ => rfl

theorem codeOf_cmdOf_of_assigned :
    ∀ b : Byte, isAssignedCode b = true → codeOf (cmdOf b) = some b := by decide

/-- `CodeOf` undoes `CmdOf` exactly on the assigned codes: every other byte is `Unknown`, which has
no code (R84, R85). -/
theorem codeOf_cmdOf_iff (b : Byte) : codeOf (cmdOf b) = some b ↔ isAssignedCode b = true := by
  constructor
  · intro h
    by_contra hb
    rw [(cmdOf_unknown_iff b).mpr (Bool.eq_false_of_not_eq_true hb)] at h
    cases h
  · exact codeOf_cmdOf_of_assigned b

/-- Settles O6: the two maps are inverse on the assigned codes, and only `Unknown` has none. -/
theorem typeCodesAreInverse : Obligations.TypeCodesAreInverse :=
  ⟨rfl, fun _ => cmdOf_codeOf, rfl,
    fun b => (codeOf_cmdOf_iff b).trans (isAssignedCode_iff b), cmdOf_eq_unknown_iff_not_code⟩

/-! ## What the decoder makes of bytes -/

/-- Whatever follows it, a first byte that is not the magic is refused (R109 (a)). -/
theorem splitFrame_notMagic {b : Byte} (bs : List Byte) (h : b ≠ Config.magic) :
    splitFrame (b :: bs) = .error (.notMagic b) := by
  match bs with
  | _ :: _ :: _ :: _ | [_, _] | [_] | [] =>
    simp only [splitFrame, ne_eq, h, not_false_eq_true, if_true]

/-- A frame's bytes decode to the instruction its type byte selects (R81, R86). -/
theorem decodeFrame_frameBytes (d : Dir) (code : Byte) {p : List Byte} (rest : List Byte)
    (h : p.length ≤ Config.maxPayload) :
    decodeFrame d (frameBytes code p ++ rest) = .ok (frameInstr d code p, rest) := by
  simp only [decodeFrame, splitFrame_frameBytes code p rest h]

theorem decode_frameBytes (d : Dir) (code : Byte) {p : List Byte} (rest : List Byte)
    (h : p.length ≤ Config.maxPayload) :
    decode d (frameBytes code p ++ rest) = .ok (refine (frameInstr d code p), rest) := by
  simp only [decode, decodeFrame_frameBytes d code rest h]

/-- Whatever decodes begins with a frame, and the instruction is the one of that frame. -/
theorem decode_ok {d : Dir} {bs rest : List Byte} {i : Instr} (h : decode d bs = .ok (i, rest)) :
    ∃ t p, splitFrame bs = .ok (t, p, rest) ∧ i = refine (frameInstr d t p) := by
  unfold decode decodeFrame at h
  rcases hs : splitFrame bs with e | ⟨t, p, rest'⟩
  · rw [hs] at h; cases h
  · rw [hs] at h; cases h
    exact ⟨t, p, rfl, rfl⟩

/-- Settles O5: the magic is tested before anything else. -/
theorem nonMagicIsNoFrame : Obligations.NonMagicIsNoFrame := by
  intro d b bs h
  have hdecode : decode d (b :: bs) = .error (.notMagic b) := by
    simp only [decode, decodeFrame, splitFrame_notMagic bs h]
  exact ⟨hdecode, by simp only [decodeExact, hdecode]⟩

/-- Settles O1: each word is written out in bytes and decoded. -/
theorem tableWordsDecode : Obligations.TableWordsDecode := by
  unfold Obligations.TableWordsDecode
  decide

/-! ## From an instruction to its bytes and back -/

theorem frameInstr_of_unknown (d : Dir) {t : Byte} (p : List Byte) (h : isAssignedCode t = false) :
    frameInstr d t p = .unknown d t p := by
  simp only [frameInstr, (cmdOf_unknown_iff t).mpr h]

/-- An `original` byte with no sub-format of its own selects the default row (R86, R107). -/
theorem ackInstr_of_other (d : Dir) {o : Byte} (a : List Byte) (h : isSubFormatOriginal o = false) :
    ackInstr d o a = .ackOther d o a := by
  unfold ackInstr
  split
  case h_6 => rfl
  all_goals
    rename_i ho
    simp [isSubFormatOriginal, ho] at h

/-- A well-formed instruction of a `FRAME` row is the one its type byte selects (R86). -/
theorem frameInstr_of_frameRow {i : Instr} (hw : i.wellFormed = true) (hf : i.isSubFormat = false) :
    frameInstr i.dir i.ftype i.payload = i := by
  cases i with
  | unknown d t p =>
    have ht : isAssignedCode t = false := by
      simp only [Instr.wellFormed, Bool.and_eq_true, Bool.not_eq_true'] at hw
      exact hw.1
    exact frameInstr_of_unknown d p ht
  | ackReadConfiguration | ackWriteConfiguration | ackReadDateTime | ackWriteDateTime
  | ackReadBatteryStatus | ackOther | nackAny => cases hf
  | _ => rfl

/-- A well-formed instruction of a sub-format row is the one its type byte and its `original` byte
select: none is read as another (R86, R107, R108). -/
theorem refine_frameInstr_of_subFormat {i : Instr} (hw : i.wellFormed = true)
    (hf : i.isSubFormat = true) : refine (frameInstr i.dir i.ftype i.payload) = i := by
  cases i with
  | ackOther d o a =>
    have ho : isSubFormatOriginal o = false := by
      simp only [Instr.wellFormed, Bool.and_eq_true, Bool.not_eq_true'] at hw
      exact hw.1
    exact ackInstr_of_other d a ho
  | ackReadConfiguration | ackWriteConfiguration | ackReadDateTime | ackWriteDateTime
  | ackReadBatteryStatus | nackAny => rfl
  | _ => cases hf

/-- Settles O2: the frame is split where it ends, and its type byte selects the instruction. -/
theorem frameRowsRoundTrip : Obligations.FrameRowsRoundTrip := by
  intro i rest hw hf
  rw [encode, decodeFrame_frameBytes _ _ _ (wellFormed_payload hw), frameInstr_of_frameRow hw hf]

/-- Settles O3: the frame is split where it ends, and its type byte and `original` byte select the
instruction. -/
theorem subFormatRowsRoundTrip : Obligations.SubFormatRowsRoundTrip := by
  intro i rest hw hf
  rw [encode, decode_frameBytes _ _ _ (wellFormed_payload hw), refine_frameInstr_of_subFormat hw hf]

/-! ## From bytes to an instruction and back -/

theorem fitsPayload_cons (b : Byte) (a : List Byte) : fitsPayload (b :: a) = fitsArgument a := by
  simp only [fitsPayload, fitsArgument, List.length_cons, Nat.succ_le_iff]

/-- The instruction a type byte selects is well-formed when the payload fits (R84, R106). -/
theorem frameInstr_wellFormed (d : Dir) (t : Byte) {p : List Byte} (h : fitsPayload p = true) :
    (frameInstr d t p).wellFormed = true := by
  unfold frameInstr
  split
  case h_16 hc =>
    simp only [Instr.wellFormed, (cmdOf_unknown_iff t).mp hc, h, Bool.not_false, Bool.and_self]
  all_goals exact h

/-- The sub-format an `original` byte selects is well-formed when the argument fits (R107). -/
theorem ackInstr_wellFormed (d : Dir) (o : Byte) {a : List Byte} (h : fitsArgument a = true) :
    (ackInstr d o a).wellFormed = true := by
  unfold ackInstr
  split
  case h_6 h2 h3 h4 h5 h6 =>
    have ho : isSubFormatOriginal o = false := by
      simp only [imp_false] at h2 h3 h4 h5 h6
      simp only [isSubFormatOriginal, Bool.and_eq_false_iff, decide_eq_false_iff_not]
      omega
    simp only [Instr.wellFormed, ho, h, Bool.not_false, Bool.and_self]
  all_goals exact h

/-- Going on to the second level keeps well-formedness: `original` is one byte of the payload. -/
theorem refine_wellFormed {i : Instr} (h : i.wellFormed = true) : (refine i).wellFormed = true := by
  unfold refine
  split
  · exact ackInstr_wellFormed _ _ ((fitsPayload_cons _ _).symm.trans h)
  · exact (fitsPayload_cons _ _).symm.trans h
  · exact h

/-- Settles O4: neither level of rows changes direction, type or payload, and what was split joins
to what it was. -/
theorem decodedInstructionReencodes : Obligations.DecodedInstructionReencodes := by
  intro d bs rest i h
  obtain ⟨t, p, hsplit, rfl⟩ := decode_ok h
  obtain ⟨hlen, hjoin⟩ := splitFrame_ok hsplit
  obtain ⟨rdir, rpayload, rftype⟩ := refine_fields (frameInstr d t p)
  obtain ⟨fdir, fpayload, fftype⟩ := frameInstr_fields d t p
  refine ⟨refine_wellFormed (frameInstr_wellFormed d t (decide_eq_true hlen)), rdir.trans fdir, ?_⟩
  rw [encode, rftype, rpayload, fftype, fpayload, hjoin]

/-! ## A frame that arrives at a ready machine -/

/-- The bytes of one frame with a payload, delivered to a ready machine: the frame is reported, its
event notified, and DEC is empty again (R159, R150, R211). -/
theorem deliver_frameBytes_of_ready {s : State} (code : Byte) {p : List Byte} (hr : Ready s)
    (hne : p ≠ []) (hp : p.length ≤ Config.maxPayload) :
    deliver (frameBytes code p) s = .next (s.afterFrame code p
      (dispatch { ftype := code, length := BitVec.ofNat 16 p.length, payload := p })) := by
  have hempty : s.setPf .empty = s := by rw [← hr.atStart]; rfl
  have hrun := runBytes_frame code p [] hne hp
  rw [List.append_nil] at hrun
  rw [deliver_open _ hr.toOpen, hr.atStart, hrun]
  simp only [runBytes, afterChunk, hempty, State.afterFrame, List.map_cons, List.map_nil]

/-- Settles O22: the frame is emitted, and `Dispatch` branches on its type. -/
theorem ackAndNackFramesGiveOneEvent : Obligations.AckAndNackFramesGiveOneEvent := by
  intro s p hr hne hp
  exact ⟨(exec_inbound (i := .ack .inbound p) s rfl hp).trans
      (deliver_frameBytes_of_ready _ hr hne hp),
    (exec_inbound (i := .nack .inbound p) s rfl hp).trans
      (deliver_frameBytes_of_ready _ hr hne hp)⟩

end Sys2Proof.Machine

/-! PROOFS. The statements about the frame encoder (`40_frame_encoder.md`): what `Encode` builds, what
a send and the nine outbound calls put on the wire, and that an encoded frame survives any cut into
chunks on its way through DEC. -/

namespace Sys2Proof.Machine

/-! ## Encode (R120, R121) -/

/-- An argument that fits is framed (R120). -/
theorem encodeArgs_of_fits (cmd : Byte) {args : Option (List Byte)}
    (h : (argBytes args).length ≤ Config.maxPayload) :
    encodeArgs cmd args = .ok (frameBytes cmd (argBytes args)) := by
  rw [encodeArgs, if_neg (Nat.not_lt.mpr h)]

/-- An argument that does not fit is refused (R120). -/
theorem encodeArgs_of_tooLarge (cmd : Byte) {args : Option (List Byte)}
    (h : Config.maxPayload < (argBytes args).length) :
    encodeArgs cmd args = .error .argumentTooLarge := by
  rw [encodeArgs, if_pos h]

/-- `Encode` answers bytes exactly when the argument fits, and they are the frame's. -/
theorem encodeArgs_eq_ok_iff {cmd : Byte} {args : Option (List Byte)} {bs : List Byte} :
    encodeArgs cmd args = .ok bs ↔
      (argBytes args).length ≤ Config.maxPayload ∧ frameBytes cmd (argBytes args) = bs := by
  constructor
  · intro h
    rcases Nat.lt_or_ge Config.maxPayload (argBytes args).length with hlong | hfits
    · rw [encodeArgs_of_tooLarge cmd hlong] at h; cases h
    · rw [encodeArgs_of_fits cmd hfits] at h; cases h; exact ⟨hfits, rfl⟩
  · rintro ⟨hfits, rfl⟩
    exact encodeArgs_of_fits cmd hfits

/-- The type byte and the payload stand in the frame's bytes unchanged (R80). -/
theorem frameBytes_injective {c c' : Byte} {p p' : List Byte}
    (h : frameBytes c p = frameBytes c' p') : c = c' ∧ p = p' := by
  simp only [frameBytes, List.cons.injEq, true_and] at h
  obtain ⟨hcode, _, _, hpayload⟩ := h
  exact ⟨hcode, hpayload⟩

/-- Settles O9: the sentinel has no code, and every other member is encoded by its code. -/
theorem typedEncoderRefusesUnknown : Obligations.TypedEncoderRefusesUnknown := by
  intro args
  exact ⟨rfl, fun c code h => by rw [encodeCmd, h]⟩

/-- Settles O7: the two length bytes are the quotient and the remainder of the length by 256. -/
theorem encodeBuildsTheFrame : Obligations.EncodeBuildsTheFrame := by
  intro cmd a
  refine ⟨rfl, fun hfits => ?_, fun hlong => encodeArgs_of_tooLarge cmd (args := some a) hlong⟩
  refine ⟨hiByte (BitVec.ofNat 16 a.length), loByte (BitVec.ofNat 16 a.length), ?_, ?_,
    encodeArgs_of_fits cmd (args := some a) hfits⟩
  · rw [hiByte_toNat, length_field_toNat hfits]
  · rw [loByte_toNat, length_field_toNat hfits]

/-- Settles O8: the header has four bytes, and a frame's bytes determine its type and payload. -/
theorem encodeIsInjective : Obligations.EncodeIsInjective := by
  intro c c' a a' bs h
  obtain ⟨_, rfl⟩ := encodeArgs_eq_ok_iff.mp h
  refine ⟨frameBytes_length c (argBytes a), fun h' => ?_⟩
  obtain ⟨_, hbytes⟩ := encodeArgs_eq_ok_iff.mp h'
  exact frameBytes_injective hbytes.symm

/-! ## Send (R132, R133) -/

/-- A send whose argument fits, on an open machine with the lock free, reaches its write. -/
theorem send_of_canSend (cmd : Byte) {args : Option (List Byte)} {s : State} (hs : CanSend s)
    (hfits : (argBytes args).length ≤ Config.maxPayload) :
    send cmd args s = .next (s.afterSend cmd (argBytes args)) := by
  rw [send_of_lock_free cmd args hs.lockFree, if_neg (Nat.not_lt.mpr hfits),
    if_neg (by simp [hs.notClosed])]

/-- A send whose argument does not fit only answers the error, whatever the state (R252 (c)). -/
theorem send_of_tooLarge (cmd : Byte) {args : Option (List Byte)} (s : State)
    (h : Config.maxPayload < (argBytes args).length) :
    send cmd args s = .next (s.addResult (.error .argumentTooLarge)) := by
  rw [send, encodeArgs_of_tooLarge cmd h]

/-- Settles O28: an outbound instruction is a send of its type byte and its payload. -/
theorem sendWritesTheFrame : Obligations.SendWritesTheFrame := by
  intro i s hd hw hs
  rw [exec_outbound s hd,
    send_of_canSend i.ftype (args := some i.payload) hs (wellFormed_payload hw)]
  rfl

/-! ## The nine outbound calls (R122 to R130, R136) -/

/-- Two bytes that carry a half word's value, high first, are its two bytes (R88). -/
theorem bytes_of_half {v : Half} {hi lo : Byte} (h : 256 * hi.toNat + lo.toNat = v.toNat) :
    hiByte v = hi ∧ loByte v = lo := by
  have hv : be16 hi lo = v := by
    apply BitVec.eq_of_toNat_eq
    rw [be16_toNat, Nat.mul_comm, h]
  exact ⟨hv ▸ hiByte_be16 hi lo, hv ▸ loByte_be16 hi lo⟩

/-- A payload whose length two bytes carry fits, and they are its frame's length bytes (R80). -/
theorem frameBytes_of_length_bytes (code : Byte) {p : List Byte} {hi lo : Byte}
    (h : 256 * hi.toNat + lo.toNat = p.length) :
    p.length ≤ Config.maxPayload ∧ frameBytes code p = [0x2A#8, code, hi, lo] ++ p := by
  have hfits : p.length ≤ Config.maxPayload := by
    have := hi.isLt
    have := lo.isLt
    simp only [Config.maxPayload]
    omega
  obtain ⟨hhi, hlo⟩ := bytes_of_half (h.trans (length_field_toNat hfits).symm)
  exact ⟨hfits, by rw [frameBytes, hhi, hlo]; rfl⟩

/-- A step that takes a call which does not wait is the `SEND` the call expands to (R136). -/
theorem step_call {s : State} {c : HostCall} {rest : List Action} (ht : s.todo = .call c :: rest)
    (hr : sendReady (expandCall c).2 s = true) :
    step s = send (expandCall c).1 (expandCall c).2 (s.setTodo rest) := by
  rw [step_first ht hr, perform, exec_sendInstr]

/-- A step that takes a call whose argument fits leaves what the send of its expansion leaves. -/
theorem step_call_of_canSend {s : State} {c : HostCall} {rest : List Action}
    (ht : s.todo = .call c :: rest) (hs : CanSend s)
    (hfits : (argBytes (expandCall c).2).length ≤ Config.maxPayload) :
    step s = .next ((s.setTodo rest).afterSend (expandCall c).1 (argBytes (expandCall c).2)) := by
  have hready : sendReady (expandCall c).2 s = true := by simp [sendReady, hs.lockFree]
  have hs' : CanSend (s.setTodo rest) := ⟨hs.notClosed, hs.lockFree⟩
  rw [step_call ht hready, send_of_canSend _ hs' hfits]

/-- Settles O31: each call expands to a send whose frame is the one that R122 to R130 give. -/
theorem callsSendTheirFrames : Obligations.CallsSendTheirFrames := by
  constructor
  · intro s rest c ht hs bs hbs
    have hframe : (argBytes (expandCall c).2).length ≤ Config.maxPayload ∧
        frameBytes (expandCall c).1 (argBytes (expandCall c).2) = bs := by
      cases c with
      | setDateTime dt dow =>
        obtain ⟨y1, y0, hyear, rfl⟩ := hbs
        obtain ⟨rfl, rfl⟩ := bytes_of_half hyear
        exact frameBytes_of_length_bytes 0x05#8 (p := encodeDateTimeForWrite dt dow)
          (hi := 0x00#8) (lo := 0x08#8) rfl
      | writeConfiguration blob =>
        obtain ⟨hi, lo, hlen, rfl⟩ := hbs
        exact frameBytes_of_length_bytes 0x03#8 hlen
      | getDateTime | readConfiguration | readBatteryStatus | stopSendData | startSendData
      | showYourself | getSampleData => exact ⟨Nat.zero_le _, hbs.symm⟩
    obtain ⟨hfits, rfl⟩ := hframe
    rw [step_call_of_canSend ht hs hfits]
    rfl
  · intro s rest blob ht hlong
    have hready : sendReady (some blob) s = true := by
      simp [sendReady, argBytes, Config.maxPayload, hlong]
    rw [step_call ht hready]
    exact send_of_tooLarge _ (args := some blob) _ hlong

/-! ## A frame through DEC, in any chunks (R134 (c), R168) -/

/-- When a chunk is drained, so are both parts of every cut of it, and the parts' frames are the
whole's (R168). -/
theorem runBytes_split_of_drained {a b : List Byte} {pf pf₂ : PartialFrame} {fs : List Frame}
    (h : runBytes (a ++ b) pf = (pf₂, fs, .drained)) :
    ∃ pf₁ fs₁ fs₂, runBytes a pf = (pf₁, fs₁, .drained) ∧ runBytes b pf₁ = (pf₂, fs₂, .drained) ∧
      fs = fs₁ ++ fs₂ := by
  rcases ha : runBytes a pf with ⟨pf₁, fs₁, e⟩
  by_cases he : e = .drained
  · subst he
    rw [runBytes_append ha] at h
    rcases hb : runBytes b pf₁ with ⟨pf', fs₂, e₂⟩
    rw [hb] at h
    cases h
    exact ⟨pf₁, fs₁, fs₂, rfl, hb, rfl⟩
  · rw [runBytes_append_stopped ha he] at h
    cases h
    exact absurd rfl he

/-- A step of an open machine that takes a chunk which is drained (R150). -/
theorem step_rx_of_drained {s : State} {chunk : List Byte} {rest : List Action}
    {pf : PartialFrame} {fs : List Frame} (ht : s.todo = .rx chunk :: rest) (ho : Open s)
    (hrun : runBytes chunk s.pf = (pf, fs, .drained)) :
    step s = .next ((((s.setTodo rest).setPf pf).addResult (.chunk fs false)).addEvents
      (fs.map dispatch)) := by
  have ho' : Open (s.setTodo rest) := ⟨ho.notClosed, ho.noFault, ho.lockFree⟩
  rw [step_first ht (ready_of_lock_free _ ho.lockFree), perform, runChunk_eq_deliver,
    deliver_open chunk ho', State.setTodo_pf, hrun, afterChunk]

/-- An open machine that is given, chunk by chunk, bytes that would be drained as one chunk answers
a state with their frames, events and PartialFrame, and is not faulted: by induction on the chunks,
splitting off the first (R168). -/
theorem runSteps_chunks_of_drained (chunks : List (List Byte)) {s : State} {pf : PartialFrame}
    {fs : List Frame} (ho : Open s) (hrun : runBytes chunks.flatten s.pf = (pf, fs, .drained)) :
    ∃ u, runSteps chunks.length (s.setTodo (chunks.map .rx)) = .next u ∧
      u.emitted = s.emitted ++ fs ∧ u.events = s.events ++ fs.map dispatch ∧ u.pf = pf ∧
      u.decFault = false := by
  induction chunks generalizing s fs with
  | nil =>
    cases hrun
    exact ⟨s.setTodo [], rfl, by simp, by simp, rfl, ho.noFault⟩
  | cons chunk chunks ih =>
    rw [List.flatten_cons] at hrun
    obtain ⟨pf₁, fs₁, fs₂, hfirst, hrest, rfl⟩ := runBytes_split_of_drained hrun
    have hstep := step_rx_of_drained (s := s.setTodo ((chunk :: chunks).map .rx)) rfl
      ⟨ho.notClosed, ho.noFault, ho.lockFree⟩ hfirst
    obtain ⟨u, hu, hemitted, hevents, hpf, hfault⟩ :=
      ih (s := ((s.setPf pf₁).addResult (.chunk fs₁ false)).addEvents (fs₁.map dispatch))
        ⟨ho.notClosed, ho.noFault, ho.lockFree⟩ hrest
    refine ⟨u, ?_, by simpa using hemitted, by simpa using hevents, hpf, hfault⟩
    rw [List.length_cons, runSteps_next _ hstep]
    exact hu

/-- A frame with a payload and nothing after it drains into an empty DEC, which is empty again
(R134 (c)). -/
theorem runBytes_frame_alone (code : Byte) {p : List Byte} (hne : p ≠ [])
    (hfits : p.length ≤ Config.maxPayload) :
    runBytes (frameBytes code p) .empty =
      (.empty, [{ ftype := code, length := BitVec.ofNat 16 p.length, payload := p }],
        .drained) := by
  rw [← List.append_nil (frameBytes code p), runBytes_frame code p [] hne hfits]
  rfl

/-- Settles O41: as one chunk the frame's bytes are drained and give the frame, so they do in any
chunks. -/
theorem encodedFrameSurvivesAnyCut : Obligations.EncodedFrameSurvivesAnyCut := by
  intro s cmd args bs chunks hr hne henc hcut
  obtain ⟨hfits, rfl⟩ := encodeArgs_eq_ok_iff.mp henc
  have hrun := (congrArg₂ runBytes hcut hr.atStart).trans (runBytes_frame_alone cmd hne hfits)
  obtain ⟨u, hu, hemitted, hevents, hpf, hfault⟩ :=
    runSteps_chunks_of_drained chunks hr.toOpen hrun
  exact ⟨u, _, hu, rfl, length_field_toNat hfits, rfl, hemitted, hevents, hpf, hfault⟩

end Sys2Proof.Machine

/-! PROOFS. The statements about the frame decoder (`41_frame_decoder.md`): what one byte and one
chunk do to DEC, that a cut of the bytes into chunks does not show, and that the byte-serial form
leaves what `ProcessChunk` leaves. -/

namespace Sys2Proof.Machine

/-! ## One byte (R151 to R159) -/

/-- Settles O32: one law of the byte step for each header state. -/
theorem headerBytesAdvanceTheState : Obligations.HeaderBytesAdvanceTheState := by
  intro b pf
  exact ⟨decByte_desync b, decByte_magic b, decByte_type b, decByte_lengthHi b, decByte_lengthLo b⟩

/-- Settles O34: only a complete frame is emitted, and its copy has as many bytes as its length
says. -/
theorem emittedFramesAreWhole : Obligations.EmittedFramesAreWhole := by
  intro b pf pf' f h
  obtain ⟨hwhole, hempty⟩ := decByte_emit h
  simp only [Frame.whole, Bool.and_eq_true, decide_eq_true_eq, beq_iff_eq] at hwhole
  exact ⟨hwhole.1, hwhole.2, hempty⟩

/-- Settles O33: the buffer holds the payload bytes taken so far from slot 0 on, so the frame's copy
is them and the last byte. -/
theorem payloadByteFillsItsSlot : Obligations.PayloadByteFillsItsSlot := by
  intro b pf hi h4
  refine ⟨fun hmore => ⟨_, decByte_fill b h4 hmore, payRead_payWrite_same _ _ _,
    fun k hk => payRead_payWrite_ne _ _ hk⟩, fun hlast => ?_⟩
  obtain ⟨done, hslots, hlen⟩ := hi.buffer
  refine ⟨done ++ [b], decByte_last b done h4 hslots hlen (by omega), ?_, ?_, fun k hk => ?_⟩
  · rw [List.length_append, List.length_singleton, hlen, hlast]
  · rw [← hlen, List.getElem?_concat_length]
  · rw [List.getElem?_append_left (by omega), hslots, ← payRead_slotsFrom 0 k done, Nat.zero_add]

/-! ## Payload bytes that do not complete the frame (R156, R170) -/

/-- The buffer after one write for each byte, at the slots from `i` on. -/
def payWrites (m : Memory) (i : Nat) : List Byte → Memory
  | [] => m
  | b :: bs => payWrites (payWrite m i b) (i + 1) bs

/-- The slots outside the written ones keep what they hold. -/
theorem payRead_payWrites_outside {m : Memory} {i k : Nat} (bs : List Byte)
    (h : k < i ∨ i + bs.length ≤ k) : payRead (payWrites m i bs) k = payRead m k := by
  induction bs generalizing m i with
  | nil => rfl
  | cons b bs ih =>
    rw [List.length_cons] at h
    rw [payWrites, ih (by omega), payRead_payWrite_ne m b (by omega)]

/-- The written slots hold the bytes in order. -/
theorem payRead_payWrites_inside (m : Memory) (i : Nat) {k : Nat} {bs : List Byte}
    (h : k < bs.length) : payRead (payWrites m i bs) (i + k) = bs[k]? := by
  induction bs generalizing m i k with
  | nil => cases h
  | cons b bs ih =>
    cases k with
    | zero =>
      rw [payWrites, payRead_payWrites_outside bs (by omega)]
      exact payRead_payWrite_same m i b
    | succ k =>
      rw [payWrites, ← Nat.add_assoc, Nat.add_right_comm, ih _ _ (Nat.lt_of_succ_lt_succ h),
        List.getElem?_cons_succ]

/-- Bytes that leave the frame waiting for more are stored, whatever they are. -/
theorem runBytes_fill (bs : List Byte) {pf : PartialFrame} (h4 : 4 ≤ pf.bytesConsumed)
    (h : pf.bytesConsumed + bs.length < 4 + pf.length.toNat) :
    runBytes bs pf =
      ({ pf with payload := payWrites pf.payload (pf.bytesConsumed - 4) bs,
                 bytesConsumed := pf.bytesConsumed + bs.length }, [], .drained) := by
  induction bs generalizing pf with
  | nil => rfl
  | cons b bs ih =>
    rw [List.length_cons] at h
    rw [runBytes_proceed (decByte_fill b h4 (by omega)), ih (by simp only; omega)
      (by simp only; omega)]
    simp only [payWrites, List.length_cons, Nat.sub_add_comm h4, Nat.add_assoc, Nat.add_comm 1]

/-! ## A step that takes a chunk -/

/-- A step that takes a chunk which does not wait is `ProcessChunk` of it (R150, R171). -/
theorem step_rx {s : State} {chunk : List Byte} {rest : List Action}
    (ht : s.todo = .rx chunk :: rest) (hr : chunkReady s = true) :
    step s = deliver chunk (s.setTodo rest) := by
  rw [step_first ht hr, perform, runChunk_eq_deliver]

/-- A step of an open machine that takes a chunk leaves what the loop of R150 leaves. -/
theorem step_rx_of_open {s : State} {chunk : List Byte} {rest : List Action}
    (ht : s.todo = .rx chunk :: rest) (ho : Open s) :
    step s = afterChunk (s.setTodo rest) (runBytes chunk s.pf) := by
  have ho' : Open (s.setTodo rest) := ⟨ho.notClosed, ho.noFault, ho.lockFree⟩
  rw [step_rx ht (ready_of_lock_free (.rx chunk) ho.lockFree), deliver_open chunk ho',
    State.setTodo_pf]

/-- Settles O54: the fetch of a one-frame chunk changes nothing. -/
theorem everyChunkIsProcessedAlike : Obligations.EveryChunkIsProcessedAlike := by
  intro s rest chunk ht hl
  exact step_rx ht (ready_of_lock_free (.rx chunk) hl)

/-- Settles O53: the fetch of each of the two actions finds the instruction. -/
theorem stepRunsTheDecodedInstruction : Obligations.StepRunsTheDecodedInstruction := by
  intro s rest
  constructor
  · intro chunk i ht hl hdecode
    have hexact : decodeExact .inbound chunk = some i := by rw [decodeExact, hdecode]
    rw [step_first ht (ready_of_lock_free _ hl), perform, runChunk, hexact]
  · intro cmd args ht hl
    obtain ⟨hdir, hftype, hpayload⟩ := sendInstr_fields cmd args
    exact ⟨sendInstr cmd args, hdir, hftype, hpayload,
      step_first ht (ready_of_lock_free _ hl)⟩

/-- Settles O38: a stopped machine's chunk does not wait, and is refused. -/
theorem chunkRefusedWhenStopped : Obligations.ChunkRefusedWhenStopped := by
  intro s rest chunk ht hstopped
  have hready : chunkReady s = true := by obtain h | h := hstopped <;> simp [chunkReady, h]
  rw [step_rx ht hready, deliver_refused (s := s.setTodo rest) chunk hstopped]
  rfl

/-- No event is no change. -/
@[simp] theorem State.addEvents_nil (s : State) : s.addEvents [] = s := by
  simp [State.addEvents]

/-- Settles O39: the loop over no bytes is drained at once. -/
theorem emptyChunkChangesNothing : Obligations.EmptyChunkChangesNothing := by
  intro s rest ht ho
  rw [step_rx_of_open ht ho, runBytes, afterChunk, List.map_nil, State.addEvents_nil]
  rfl

/-- A chunk whose first byte in an empty DEC is not the magic is dropped (R151). -/
theorem runBytes_desync {b : Byte} (tail : List Byte) (hb : b ≠ Config.magic) :
    runBytes (b :: tail) .empty = (.empty, [], .desync) := by
  simp only [runBytes, decByte_desync b (pf := .empty) rfl hb]

/-- Settles O35: the loop ends at the first byte. -/
theorem desyncDropsTheChunk : Obligations.DesyncDropsTheChunk := by
  intro s rest b tail ht hr hb
  rw [step_rx_of_open ht hr.toOpen, hr.atStart, runBytes_desync tail hb, afterChunk, List.map_nil,
    State.addEvents_nil]
  rfl

/-- Settles O36: the frame's bytes leave DEC empty, and the loop ends at the next byte. -/
theorem desyncKeepsEarlierFrames : Obligations.DesyncKeepsEarlierFrames := by
  intro s rest code b p tail ht hr hne hfits hb f hcode hlen hpayload
  obtain ⟨ftype, length, payload⟩ := f
  obtain rfl : ftype = code := hcode
  obtain rfl : payload = p := hpayload
  have hfield : BitVec.ofNat 16 payload.length = length :=
    BitVec.eq_of_toNat_eq ((length_field_toNat hfits).trans hlen.symm)
  rw [step_rx_of_open ht hr.toOpen, hr.atStart, runBytes_frame ftype payload _ hne hfits,
    runBytes_desync tail hb, afterChunk, hfield]
  rfl

/-- Settles O37: the loop ends at the first byte, which is not taken. -/
theorem byteWhenWedgedFaults : Obligations.ByteWhenWedgedFaults := by
  intro s rest b tail ht ho hcount hlength
  have hrun : runBytes (b :: tail) s.pf = (s.pf, [], .overrun) := by
    simp only [runBytes, decByte_wedged b (isWedged_iff.mpr ⟨hcount, hlength⟩)]
  rw [step_rx_of_open ht ho, hrun, afterChunk, List.map_nil, State.addEvents_nil]
  rfl

/-! ## A frame that arrives with no payload, or inside a longer one -/

/-- Settles O25: the header is the whole frame, and it drains into state 4. -/
theorem zeroLengthFrameWedges : Obligations.ZeroLengthFrameWedges := by
  intro s i hr hdir hpayload
  have hheader := runBytes_header i.ftype [] []
  rw [List.append_nil] at hheader
  rw [exec_inbound s hdir (by simp [hpayload]), encode, hpayload, deliver_open _ hr.toOpen,
    hr.atStart, hheader]
  simp only [List.append_nil, runBytes, afterChunk, List.map_nil, State.addEvents_nil]
  rfl

/-- Settles O27: no byte of the arriving frame completes the pending one, so each is stored. -/
theorem midFrameBytesFillTheirSlots : Obligations.MidFrameBytesFillTheirSlots := by
  intro s i ho hdir hwf h4 hwaits
  refine ⟨payWrites s.pf.payload (s.pf.bytesConsumed - 4) (encode i), ?_,
    fun k hk => payRead_payWrites_inside _ _ hk, fun k hk => payRead_payWrites_outside _ hk⟩
  rw [exec_inbound s hdir (wellFormed_payload hwf), deliver_open _ ho,
    runBytes_fill (encode i) h4 hwaits, afterChunk, List.map_nil, State.addEvents_nil]
  rfl

/-! ## The wedged condition (R160) -/

/-- Every action but Close and Reset leaves the PartialFrame of a wedged DEC: a byte overruns. -/
theorem perform_wedged {a : Action} {s t : State} (h : perform a s = .next t)
    (hw : isWedged s.pf = true) : t.pf = s.pf ∨ a = .close ∨ a = .reset := by
  have hbyte (b : Byte) (pf pf' : PartialFrame) (r : ByteResult) (hd : decByte b pf = (pf', r))
      (hp : pf = s.pf) : pf' = s.pf := by
    subst hp
    rw [decByte_wedged b hw] at hd
    cases hd
    rfl
  obtain ⟨_, chunk, q, hdel⟩ | ⟨b, last, _, htaken⟩ | ⟨ha, _⟩ | ⟨ha, _⟩ | ⟨_, _, hsend⟩ |
    ⟨hsame, _⟩ := perform_decoder_cases h
  · exact .inl (deliver_pf_induct (P := (· = s.pf)) hbyte hdel rfl)
  · exact .inl (byteIn_pf_induct (P := (· = s.pf)) hbyte htaken rfl)
  · exact .inr (.inl ha)
  · exact .inr (.inr ha)
  · exact .inl (send_sameDecoder hsend).pf
  · exact .inl hsame.pf

/-- Settles O44: no action but Close and Reset changes the PartialFrame of a wedged DEC. -/
theorem onlyCloseAndResetUnwedge : Obligations.OnlyCloseAndResetUnwedge := by
  intro s t h hcount hlength
  obtain ⟨_, rfl⟩ | ⟨a, rest, ht, ha⟩ := step_cases h
  · exact .inl rfl
  · obtain hkept | rfl | rfl := perform_wedged ha (isWedged_iff.mpr ⟨hcount, hlength⟩)
    · exact .inl hkept
    · exact .inr ⟨rest, .inl ht⟩
    · exact .inr ⟨rest, .inr ht⟩

/-! ## What the bytes of a transfer leave -/

/-- Between `s` and `u` DEC has taken bytes: it holds the PartialFrame `pf`, its fault is `fault`,
the frames `fs` were emitted and given to `Dispatch`, and `dec.closed`, the queue and the writes are
as they were. Of the lock and the drop bit, which a byte-serial transfer moves, nothing is said. -/
structure Receives (s u : State) (pf : PartialFrame) (fs : List Frame) (fault : Bool) : Prop where
  pf : u.pf = pf
  fault : u.decFault = fault
  closed : u.decClosed = s.decClosed
  rxq : u.rxq = s.rxq
  written : u.written = s.written
  emitted : u.emitted = s.emitted ++ fs
  events : u.events = s.events ++ fs.map dispatch

section Receives

variable {s m u : State} {pf pf₁ : PartialFrame} {fs fs₁ fs₂ : List Frame} {e : ChunkEnd}
  {fault fault₁ : Bool}

theorem Receives.refl (s : State) : Receives s s s.pf [] s.decFault :=
  ⟨rfl, rfl, rfl, rfl, rfl, by simp, by simp⟩

/-- The frames of two transfers in a row are joined; the last one tells the PartialFrame and the
fault. -/
theorem Receives.trans (h₁ : Receives s m pf₁ fs₁ fault₁) (h₂ : Receives m u pf fs₂ fault) :
    Receives s u pf (fs₁ ++ fs₂) fault where
  pf := h₂.pf
  fault := h₂.fault
  closed := h₂.closed.trans h₁.closed
  rxq := h₂.rxq.trans h₁.rxq
  written := h₂.written.trans h₁.written
  emitted := by rw [h₂.emitted, h₁.emitted, List.append_assoc]
  events := by rw [h₂.events, h₁.events, List.map_append, List.append_assoc]

/-- The plan has no part in what a transfer leaves. -/
theorem Receives.of_setTodo {l : List Action} (h : Receives (s.setTodo l) u pf fs fault) :
    Receives s u pf fs fault :=
  ⟨h.pf, h.fault, h.closed, h.rxq, h.written, h.emitted, h.events⟩

/-- The end of a byte's transfer moves the drop bit and the lock only (R166). -/
theorem Receives.endTransfer (last : Bool) (h : Receives s u pf fs fault) :
    Receives s (endTransfer last u) pf fs fault := by
  constructor <;> simp [h.pf, h.fault, h.closed, h.rxq, h.written, h.emitted, h.events]

/-- A chunk that an open machine takes leaves what its loop gives; the fault is set by an overrun
only (R150, R157). -/
theorem afterChunk_receives (hf : s.decFault = false) (h : afterChunk s (pf, fs, e) = .next u) :
    Receives s u pf fs (e = .overrun) := by
  cases e with
  | noValue i => cases h
  | drained | desync | overrun => cases h; constructor <;> simp [hf]

/-! ## A cut into chunks (R168) -/

/-- After the fault every chunk is refused: DEC takes no byte (R171). -/
theorem runSteps_chunks_of_fault (chunks : List (List Byte)) (hf : s.decFault = true)
    (ht : s.todo = chunks.map .rx) (hu : runSteps chunks.length s = .next u) :
    Receives s u s.pf [] true := by
  induction chunks generalizing s with
  | nil => cases hu; rw [← hf]; exact .refl _
  | cons chunk chunks ih =>
    rw [List.length_cons] at hu
    rw [runSteps_next _ ((step_rx ht (by simp [chunkReady, hf])).trans
      (deliver_refused chunk (.inr hf)))] at hu
    obtain ⟨hpf, hfault, hclosed, hrxq, hwritten, hemitted, hevents⟩ :=
      ih (s := (s.setTodo (chunks.map .rx)).addResult (.error .refused)) hf rfl hu
    exact ⟨hpf, hfault, hclosed, hrxq, hwritten, by simpa using hemitted, hevents⟩

/-- Any cut of bytes whose loop meets no desync leaves what the loop over all of them leaves: by
induction on the chunks. A first chunk that is drained hands its PartialFrame on; one that overruns
sets the fault, and the later chunks are refused, as the loop reads no later byte. -/
theorem runSteps_chunks_receives (chunks : List (List Byte)) (ho : Open s)
    (ht : s.todo = chunks.map .rx) (hrun : runBytes chunks.flatten s.pf = (pf, fs, e))
    (he : e ≠ .desync) (hu : runSteps chunks.length s = .next u) :
    Receives s u pf fs (e = .overrun) := by
  induction chunks generalizing s fs with
  | nil =>
    have hsame := Receives.refl s
    rw [ho.noFault] at hsame
    cases hrun
    cases hu
    exact hsame
  | cons chunk chunks ih =>
    obtain ⟨m, hm, hu⟩ := runSteps_first hu
    rw [step_rx_of_open ht ho] at hm
    rcases hc : runBytes chunk s.pf with ⟨pf₁, fs₁, e₁⟩
    rw [hc] at hm
    have hfirst := (afterChunk_receives (s := s.setTodo (chunks.map .rx)) ho.noFault hm).of_setTodo
    rw [List.flatten_cons] at hrun
    cases e₁ with
    | noValue i => cases hm
    | drained =>
      rw [runBytes_append hc] at hrun
      cases hrun
      cases hm
      exact hfirst.trans (ih ⟨ho.notClosed, ho.noFault, ho.lockFree⟩ rfl rfl hu)
    | desync =>
      rw [runBytes_append_stopped hc (by simp)] at hrun
      cases hrun
      exact absurd rfl he
    | overrun =>
      rw [runBytes_append_stopped hc (by simp)] at hrun
      cases hrun
      cases hm
      simpa using hfirst.trans (runSteps_chunks_of_fault chunks rfl rfl hu)

end Receives

/-- Settles O40: as one chunk and in any cut the bytes leave what the loop over them leaves. -/
theorem fragmentationInvariance : Obligations.FragmentationInvariance := by
  intro s t u bs chunks r ho hcut ht hresult hnodesync hu
  subst hcut
  rcases hrun : runBytes chunks.flatten s.pf with ⟨pf, fs, e⟩
  have ho' (l : List Action) : Open (s.setTodo l) := ⟨ho.notClosed, ho.noFault, ho.lockFree⟩
  rw [step_rx_of_open (s := s.setTodo _) rfl (ho' _), State.setTodo_pf, hrun] at ht
  have hone := (afterChunk_receives (s := s.setTodo []) ho.noFault ht).of_setTodo
  have he : e ≠ .desync := by
    rintro rfl
    cases ht
    exact hnodesync fs (by simpa using hresult.symm)
  have hcuts := (runSteps_chunks_receives chunks (ho' _) rfl hrun he hu).of_setTodo
  exact ⟨hcuts.emitted.trans hone.emitted.symm, hcuts.events.trans hone.events.symm,
    hcuts.pf.trans hone.pf.symm, hcuts.fault.trans hone.fault.symm⟩


/-! ## A chunk byte by byte (R166) -/

/-- The plan that hands over a chunk byte by byte, `last` on its final byte. -/
def byteSerial (init : List Byte) (b : Byte) : List Action :=
  init.map (fun x => .byteIn x false) ++ [.byteIn b true]

/-- The next byte of a transfer reaches DEC: the machine is not stopped, no send holds the lock and
the bytes are not being dropped. -/
structure TakesByte (s : State) : Prop where
  notClosed : s.decClosed = false
  noFault : s.decFault = false
  noDrop : s.decDrop = false
  notSending : s.lock ≠ .tx

/-- A byte-serial transfer is over: its bytes have left what `Receives` says, the lock is given back
and the drop bit is clear. -/
structure TransferDone (s u : State) (pf : PartialFrame) (fs : List Frame) (fault : Bool) : Prop
    extends Receives s u pf fs fault where
  lock : u.lock = .free
  drop : u.decDrop = false

section ByteSerial

variable {s u : State} {b : Byte} {last : Bool} {rest : List Action} {pf : PartialFrame}
  {fs : List Frame} {e : ChunkEnd} {fault : Bool}

/-- The last byte of a transfer ends it. -/
theorem Receives.transferDone (h : Receives s u pf fs fault) (hl : u.lock ≠ .tx) :
    TransferDone s (Machine.endTransfer true u) pf fs fault :=
  ⟨h.endTransfer true, endTransfer_true_lock u hl, endTransfer_true_decDrop u⟩

/-- A step takes the byte that is first in the plan unless a send holds the lock. -/
theorem step_byteIn (ht : s.todo = .byteIn b last :: rest) (hl : s.lock ≠ .tx) :
    step s = byteIn b last (s.setTodo rest) :=
  step_first ht (by simp [ready, byteReady, hl])

/-- A byte that reaches DEC is a chunk of one byte; the lock is held, and a desync sets the drop
bit. -/
theorem step_byteIn_receives (hs : TakesByte s) (ht : s.todo = .byteIn b last :: rest)
    (hrun : runBytes [b] s.pf = (pf, fs, e)) (he : ∀ i, e ≠ .noValue i) :
    ∃ m, step s = .next (endTransfer last m) ∧ Receives s m pf fs (e = .overrun) ∧
      m.lock = .rx ∧ m.decDrop = decide (e = .desync) ∧ m.todo = rest := by
  obtain ⟨hc, hf, hd, hl⟩ := hs
  simp only [step_byteIn ht hl, byteIn, State.setTodo_decClosed, State.setTodo_decFault,
    State.setTodo_lock, State.setTodo_decDrop, State.setTodo_pf, hc, hf, hd, hl, Bool.or_self,
    Bool.false_eq_true, if_false]
  rcases hb : decByte b s.pf with ⟨pf', r⟩
  cases r with
  | proceed =>
    rw [runBytes_proceed hb] at hrun
    cases hrun
    exact ⟨_, rfl, ⟨rfl, hf, rfl, rfl, rfl, by simp, by simp⟩, rfl, hd, rfl⟩
  | emit f =>
    rw [runBytes_emit hb] at hrun
    cases hrun
    exact ⟨_, rfl, ⟨rfl, hf, rfl, rfl, rfl, by simp [runBytes], by simp [runBytes]⟩, rfl, hd, rfl⟩
  | desync =>
    simp only [runBytes, hb] at hrun
    cases hrun
    exact ⟨_, rfl, ⟨rfl, hf, rfl, rfl, rfl, by simp, by simp⟩, rfl, rfl, rfl⟩
  | overrun =>
    simp only [runBytes, hb] at hrun
    cases hrun
    exact ⟨_, rfl, ⟨rfl, rfl, rfl, rfl, rfl, by simp, by simp⟩, rfl, hd, rfl⟩
  | noValue i =>
    simp only [runBytes, hb] at hrun
    cases hrun
    exact absurd rfl (he i)

/-- With the transfer's lock held, a byte after a fault or a desync is read by nobody. -/
theorem step_byteIn_ignored (ht : s.todo = .byteIn b last :: rest) (hl : s.lock = .rx)
    (hi : s.decFault = true ∨ s.decDrop = true) :
    step s = .next (endTransfer last (s.setTodo rest)) := by
  rw [step_byteIn ht (by simp [hl]), byteIn]
  split
  · rfl
  · rename_i hstopped
    have hf : s.decFault = false := by simp_all
    have hheld : acquire .rx (s.setTodo rest) = s.setTodo rest := by
      rw [← hl]; rfl
    simp only [State.setTodo_lock, State.setTodo_decDrop, hheld, hl, hi.resolve_left (by simp [hf]),
      reduceCtorEq, if_false, if_true]

/-- The rest of a transfer after a fault or a desync only ends it. -/
theorem runSteps_byteSerial_ignored (init : List Byte) (b : Byte) (ht : s.todo = byteSerial init b)
    (hl : s.lock = .rx) (hi : s.decFault = true ∨ s.decDrop = true) :
    ∃ u, runSteps (init.length + 1) s = .next u ∧ TransferDone s u s.pf [] s.decFault := by
  induction init generalizing s with
  | nil =>
    refine ⟨_, runSteps_next 0 (step_byteIn_ignored ht hl hi), ?_⟩
    obtain ⟨hreceives, hlock, hdrop⟩ := (Receives.refl (s.setTodo [])).transferDone (by simp [hl])
    exact ⟨hreceives.of_setTodo, hlock, hdrop⟩
  | cons x xs ih =>
    obtain ⟨u, hu, hreceives, hlock, hdrop⟩ := ih (s := s.setTodo (byteSerial xs b)) rfl hl hi
    exact ⟨u, (runSteps_next _ (step_byteIn_ignored ht hl hi)).trans hu, hreceives.of_setTodo,
      hlock, hdrop⟩

/-- A chunk taken byte by byte leaves what its loop gives: by induction on the bytes before the last
one, each a chunk of one byte. After a desync or an overrun the other bytes are ignored, as the loop
reads none of them. -/
theorem runSteps_byteSerial_receives (init : List Byte) (b : Byte) (hs : TakesByte s)
    (ht : s.todo = byteSerial init b) (hrun : runBytes (init ++ [b]) s.pf = (pf, fs, e))
    (he : ∀ i, e ≠ .noValue i) :
    ∃ u, runSteps (init.length + 1) s = .next u ∧ TransferDone s u pf fs (e = .overrun) := by
  induction init generalizing s fs with
  | nil =>
    obtain ⟨m, hm, hreceives, hlock, _⟩ := step_byteIn_receives hs ht hrun he
    exact ⟨_, runSteps_next 0 hm, hreceives.transferDone (by simp [hlock])⟩
  | cons x xs ih =>
    rcases hx : runBytes [x] s.pf with ⟨pf₁, fs₁, e₁⟩
    have hcut : x :: xs ++ [b] = [x] ++ (xs ++ [b]) := rfl
    have hstopped (h : e₁ ≠ .drained) : (pf₁, fs₁, e₁) = (pf, fs, e) := by
      rw [← hrun, hcut, runBytes_append_stopped hx h]
    have he₁ (i : Nat) : e₁ ≠ .noValue i := by
      rintro rfl
      cases hstopped (by simp)
      exact he i rfl
    obtain ⟨m, hm, hfirst, hlock, hdrop, htodo⟩ := step_byteIn_receives hs ht hx he₁
    rw [List.length_cons, runSteps_next _ hm, endTransfer_false]
    cases e₁ with
    | noValue i => exact absurd rfl (he₁ i)
    | drained =>
      rw [hcut, runBytes_append hx, ← hfirst.pf] at hrun
      cases hrun
      obtain ⟨u, hu, hdone⟩ := ih ⟨hfirst.closed.trans hs.notClosed, hfirst.fault, hdrop,
        by simp [hlock]⟩ htodo rfl
      exact ⟨u, hu, hfirst.trans hdone.toReceives, hdone.lock, hdone.drop⟩
    | desync =>
      cases hstopped (by simp)
      obtain ⟨u, hu, hdone⟩ := runSteps_byteSerial_ignored xs b htodo hlock (.inr hdrop)
      rw [hfirst.pf, hfirst.fault] at hdone
      exact ⟨u, hu, by simpa using hfirst.trans hdone.toReceives, hdone.lock, hdone.drop⟩
    | overrun =>
      cases hstopped (by simp)
      obtain ⟨u, hu, hdone⟩ := runSteps_byteSerial_ignored xs b htodo hlock (.inl hfirst.fault)
      rw [hfirst.pf, hfirst.fault] at hdone
      exact ⟨u, hu, by simpa using hfirst.trans hdone.toReceives, hdone.lock, hdone.drop⟩

end ByteSerial

/-- Settles O42: both forms leave what the loop over the bytes leaves, and the lock free. -/
theorem byteSerialIsProcessChunk : Obligations.ByteSerialIsProcessChunk := by
  intro s t init b ho hd ht
  obtain ⟨_, hdrop, hlock, _⟩ := deliver_frame ht
  rcases hrun : runBytes (init ++ [b]) s.pf with ⟨pf, fs, e⟩
  rw [deliver_open _ ho, hrun] at ht
  have hchunk := afterChunk_receives ho.noFault ht
  have he (i : Nat) : e ≠ .noValue i := by rintro rfl; cases ht
  obtain ⟨u, hu, hdone⟩ := runSteps_byteSerial_receives (s := s.setTodo (byteSerial init b)) init b
    ⟨ho.notClosed, ho.noFault, hd, by simp [ho.lockFree]⟩ rfl hrun he
  have hbytes := hdone.toReceives.of_setTodo
  exact ⟨u, hu, hbytes.pf.trans hchunk.pf.symm, hbytes.fault.trans hchunk.fault.symm,
    hbytes.closed.trans hchunk.closed.symm, hdone.drop.trans (hdrop.trans hd).symm,
    hdone.lock.trans (hlock.trans ho.lockFree).symm, hbytes.rxq.trans hchunk.rxq.symm,
    hbytes.written.trans hchunk.written.symm, hbytes.emitted.trans hchunk.emitted.symm,
    hbytes.events.trans hchunk.events.symm⟩

end Sys2Proof.Machine

/-! PROOFS. The statements about the payload codec (`42_payload_codec.md`): which bytes each decoder
accepts, the value that it reads from them, and the date-time's round trip. -/

namespace Sys2Proof.Machine

/-! ## Date-time (R191, R192, R199) -/

theorem decodeDateTime_of_length_ne {a : List Byte} (h : a.length ≠ Config.dateTimeReadLen) :
    decodeDateTime a = .error .payloadLengthMismatch := by
  unfold decodeDateTime
  split
  · exact absurd rfl h
  · rfl

/-- The write form is the seven bytes that `DecodeDateTime` reads, then the day of week. -/
theorem decodeDateTime_take_encodeDateTimeForWrite (dt : DateTimeValue) (dow : Byte) :
    decodeDateTime ((encodeDateTimeForWrite dt dow).take Config.dateTimeReadLen) = .ok dt := by
  have hyear : be16 (hiByte dt.year) (loByte dt.year) = dt.year := be16_hi_lo dt.year
  simp [encodeDateTimeForWrite, decodeDateTime, hyear]

/-- Settles O10: the year's two bytes give it back, and the other fields are a byte each. -/
theorem dateTimeRoundTrip : Obligations.DateTimeRoundTrip := by
  intro dt dow
  exact ⟨decodeDateTime_take_encodeDateTimeForWrite dt dow, rfl, rfl⟩

/-- Settles O11: seven bytes match the decoder's pattern, and no other list does. -/
theorem dateTimeLayout : Obligations.DateTimeLayout := by
  refine ⟨fun y1 y0 mo d h mi se => ⟨be16 y1 y0, ?_, rfl⟩, fun _ => decodeDateTime_of_length_ne⟩
  rw [be16_toNat, Nat.mul_comm]

/-! ## The battery value (R193) -/

theorem decodeU32BE_of_length_ne {a : List Byte} (h : a.length ≠ Config.u32Len) :
    decodeU32BE a = .error .payloadLengthMismatch := by
  unfold decodeU32BE
  split
  · exact absurd rfl h
  · rfl

/-- Settles O12: four bytes match the decoder's pattern, and no other list does. -/
theorem batteryValueLayout : Obligations.BatteryValueLayout := by
  refine ⟨fun b0 b1 b2 b3 => ⟨be32 b0 b1 b2 b3, ?_, rfl⟩, fun _ => decodeU32BE_of_length_ne⟩
  rw [be32_toNat]
  ring

end Sys2Proof.Machine

/-! PROOFS. The statements about the response dispatch (`43_response_dispatch.md`): the event that each
type of frame gives when it arrives at a ready machine, and that events and emitted frames stay one
to one. -/

namespace Sys2Proof.Machine

/-! ## One event for each emitted frame (R211, R225) -/

/-- Frames reported together with their events keep the events `Dispatch` of the emitted frames. -/
theorem Reports.oneEventPerFrame {s t : State} {fs : List Frame} (h : Reports s t fs)
    (hs : s.events = s.emitted.map dispatch) : t.events = t.emitted.map dispatch := by
  rw [h.events, h.emitted, hs, List.map_append]

/-- Settles O59: an action adds the same frames to both records, and the plan has no part in them. -/
theorem stepKeepsOneEventPerFrame : Obligations.StepKeepsOneEventPerFrame := by
  intro s t hs h
  refine step_induct (P := fun s => s.events = s.emitted.map dispatch) (fun _ _ hp => hp)
    (fun a s t ha hp => ?_) h hs
  obtain ⟨_, hreports⟩ := perform_reports ha
  exact hreports.oneEventPerFrame hp

/-! ## A frame that arrives at a ready machine gives the event of its dispatch -/

section Arrival

variable {i : Instr} {s : State} {e : Event} {o : Byte} {a : List Byte}

/-- An inbound instruction with a payload, in a ready machine: its frame is reported, and the event is
`Dispatch` of that frame, which reads the type and the payload only. -/
theorem exec_inbound_of_ready (hr : Ready s) (hd : i.dir = .inbound) (hne : i.payload ≠ [])
    (hp : i.payload.length ≤ Config.maxPayload)
    (he : ∀ length, dispatch { ftype := i.ftype, length := length, payload := i.payload } = e) :
    exec i s = .next (s.afterFrame i.ftype i.payload e) := by
  rw [exec_inbound s hd hp, encode, deliver_frameBytes_of_ready i.ftype hr hne hp, he]

/-- An inbound sub-format of a type byte, in a ready machine: the payload is `original` and what
follows it, which fits beside it (R107, R108). -/
theorem exec_subFormat_of_ready (hr : Ready s) (hd : i.dir = .inbound) (hpayload : i.payload = o :: a)
    (ha : a.length ≤ 65534)
    (he : ∀ length, dispatch { ftype := i.ftype, length := length, payload := o :: a } = e) :
    exec i s = .next (s.afterFrame i.ftype (o :: a) e) := by
  rw [← hpayload] at he ⊢
  refine exec_inbound_of_ready hr hd ?_ ?_ he
  · rw [hpayload]; exact List.cons_ne_nil o a
  · rw [hpayload]; exact Nat.succ_le_succ ha

end Arrival

/-! ## Data and log frames (R212, R221) -/

/-- Settles O13: the dispatch of type 0x32 hands the payload over. -/
theorem sendDataReachesTheSink : Obligations.SendDataReachesTheSink := by
  intro s p hr hne hp
  exact exec_inbound_of_ready (i := .sendData .inbound p) hr rfl hne hp fun _ => rfl

/-- Settles O14: the dispatch of type 0x33 hands the payload over. -/
theorem sendLogReachesTheSink : Obligations.SendLogReachesTheSink := by
  intro s p hr hne hp
  exact exec_inbound_of_ready (i := .sendLog .inbound p) hr rfl hne hp fun _ => rfl

/-! ## Acks (R213 to R219) -/

/-- Settles O15: `original` 2 hands the argument over. -/
theorem ackReadConfigurationCarriesTheBlob : Obligations.AckReadConfigurationCarriesTheBlob := by
  intro s a hr ha
  exact exec_subFormat_of_ready (i := .ackReadConfiguration .inbound a) hr rfl rfl ha fun _ => rfl

/-- Settles O16: `original` 3 and 5 give an event without data. -/
theorem acksOfWritesCarryNothing : Obligations.AcksOfWritesCarryNothing := by
  intro s a hr ha
  constructor
  · exact exec_subFormat_of_ready (i := .ackWriteConfiguration .inbound a) hr rfl rfl ha fun _ => rfl
  · exact exec_subFormat_of_ready (i := .ackWriteDateTime .inbound a) hr rfl rfl ha fun _ => rfl

theorem ackReadDateTimeEvent_of_short {a : List Byte} (h : a.length < Config.dateTimeReadLen) :
    ackReadDateTimeEvent a = .error .payloadLengthMismatch :=
  if_pos h

/-- Seven argument bytes are the date-time, whatever follows them (R216). -/
theorem ackReadDateTimeEvent_of_seven (y1 y0 mo d h mi se : Byte) (more : List Byte) :
    ackReadDateTimeEvent (y1 :: y0 :: mo :: d :: h :: mi :: se :: more) =
      .readDateTime
        { year := be16 y1 y0, month := mo, day := d, hour := h, minute := mi, second := se } :=
  if_neg (Nat.not_lt.mpr (Nat.le_add_left Config.dateTimeReadLen more.length))

/-- Settles O17: `original` 4 reads the first seven argument bytes. -/
theorem ackReadDateTimeParsesSevenBytes : Obligations.AckReadDateTimeParsesSevenBytes := by
  intro s a hr ha
  constructor
  · intro hshort
    exact exec_subFormat_of_ready (i := .ackReadDateTime .inbound a) hr rfl rfl ha
      fun _ => ackReadDateTimeEvent_of_short hshort
  · rintro y1 y0 mo d h mi se more y rfl hy
    have hyear : be16 y1 y0 = y := by
      apply BitVec.eq_of_toNat_eq
      rw [be16_toNat, hy, Nat.mul_comm]
    rw [← hyear]
    exact exec_subFormat_of_ready (i := .ackReadDateTime .inbound _) hr rfl rfl ha
      fun _ => ackReadDateTimeEvent_of_seven y1 y0 mo d h mi se more

theorem ackReadBatteryStatusEvent_of_short {a : List Byte} (h : a.length < Config.u32Len) :
    ackReadBatteryStatusEvent a = .error .payloadLengthMismatch :=
  if_pos h

/-- Four argument bytes are the battery value, whatever follows them (R218). -/
theorem ackReadBatteryStatusEvent_of_four (b0 b1 b2 b3 : Byte) (more : List Byte) :
    ackReadBatteryStatusEvent (b0 :: b1 :: b2 :: b3 :: more) = .batteryStatus (be32 b0 b1 b2 b3) :=
  if_neg (Nat.not_lt.mpr (Nat.le_add_left Config.u32Len more.length))

/-- Settles O18: `original` 6 reads the first four argument bytes. -/
theorem ackReadBatteryParsesFourBytes : Obligations.AckReadBatteryParsesFourBytes := by
  intro s a hr ha
  constructor
  · intro hshort
    exact exec_subFormat_of_ready (i := .ackReadBatteryStatus .inbound a) hr rfl rfl ha
      fun _ => ackReadBatteryStatusEvent_of_short hshort
  · rintro b0 b1 b2 b3 more n rfl hn
    have hvalue : be32 b0 b1 b2 b3 = n := by
      apply BitVec.eq_of_toNat_eq
      rw [be32_toNat, hn]
      ring
    rw [← hvalue]
    exact exec_subFormat_of_ready (i := .ackReadBatteryStatus .inbound _) hr rfl rfl ha
      fun _ => ackReadBatteryStatusEvent_of_four b0 b1 b2 b3 more

/-- The five members with an Ack branch of their own have the codes 2 to 6 (R83, R213). -/
theorem original_of_cmdOf_ackBranch : ∀ o : Byte,
    (cmdOf o = .readConfiguration ∨ cmdOf o = .writeConfiguration ∨ cmdOf o = .readDateTime ∨
      cmdOf o = .writeDateTime ∨ cmdOf o = .readBatteryStatus) → 2 ≤ o.toNat ∧ o.toNat ≤ 6 := by
  decide

theorem dispatchAck_of_other {o : Byte} (a : List Byte) (ho : ¬(2 ≤ o.toNat ∧ o.toNat ≤ 6)) :
    dispatchAck (o :: a) = .ignored := by
  cases hc : cmdOf o with
  | readConfiguration | writeConfiguration | readDateTime | writeDateTime | readBatteryStatus =>
    exact absurd (original_of_cmdOf_ackBranch o (by simp [hc])) ho
  | _ => simp only [dispatchAck, splitAck, hc, ackOtherEvent]

/-- Settles O19: no other `original` has a branch. -/
theorem otherAcksAreIgnored : Obligations.OtherAcksAreIgnored := by
  intro s o a hr ha ho
  exact exec_subFormat_of_ready (i := .ackOther .inbound o a) hr rfl rfl ha
    fun _ => dispatchAck_of_other a ho

/-! ## Nacks (R220) -/

/-- Settles O20: the second payload byte is the error code, and without it there is none. -/
theorem nackReportsCommandFailed : Obligations.NackReportsCommandFailed := by
  intro s o hr
  constructor
  · exact exec_subFormat_of_ready (i := .nackAny .inbound o []) hr rfl rfl (Nat.zero_le _) fun _ => rfl
  · intro e more hmore
    exact exec_subFormat_of_ready (i := .nackAny .inbound o (e :: more)) hr rfl rfl
      (Nat.succ_le_succ hmore) fun _ => rfl

/-! ## Types that are ignored (R222, R223) -/

/-- Settles O23: each of the eleven types falls through every branch. -/
theorem typesWithNoBranchAreIgnored : Obligations.TypesWithNoBranchAreIgnored := by
  intro s p hr hne hp
  refine ⟨?_, ?_, ?_, ?_, ?_, ?_, ?_, ?_, ?_, ?_, ?_⟩
  all_goals exact exec_inbound_of_ready hr rfl hne hp fun _ => rfl

/-- Settles O24: a byte that is no code is `Unknown` to the dispatch, which has no action for it. -/
theorem unknownTypesAreIgnored : Obligations.UnknownTypesAreIgnored := by
  intro s t p hr hne hp ht
  have hunknown : cmdOf t = .unknown := (cmdOf_eq_unknown_iff_not_code t).mpr ht
  exact exec_inbound_of_ready (i := .unknown .inbound t p) hr rfl hne hp
    fun _ => by simp only [dispatch, Instr.ftype, hunknown]

/-! ## The two levels of rows (R86, R213) -/

/-- Instructions of the same direction, type byte and payload mean the same. -/
theorem exec_congr {i j : Instr} (s : State) (hdir : i.dir = j.dir) (hftype : i.ftype = j.ftype)
    (hpayload : i.payload = j.payload) : exec i s = exec j s := by
  rw [exec_eq, exec_eq, hdir, hftype, hpayload]

/-- Settles O21: a sub-format is the frame of its type byte with `original` in front of the rest. -/
theorem ackAndNackBranchOnOriginal : Obligations.AckAndNackBranchOnOriginal := by
  intro s d a
  refine ⟨?_, ?_, ?_, ?_, ?_, fun o => ⟨?_, fun _ => ?_⟩⟩
  all_goals exact exec_congr s rfl rfl rfl

end Sys2Proof.Machine

/-! PROOFS. The statements about the exceptions (`60_exceptions.md`): the order of a send's errors, what
`on_bytes` delivers, that a timeout changes nothing, and that no error stops the machine. -/

namespace Sys2Proof.Machine

/-! ## The errors of a send (R252 (c)) -/

/-- After Close a send whose argument fits is refused, whoever holds the lock (R132, R241). -/
theorem send_of_closed (cmd : Byte) {args : Option (List Byte)} {s : State}
    (hfits : (argBytes args).length ≤ Config.maxPayload) (hc : s.decClosed = true) :
    send cmd args s = .next (s.addResult (.error .refused)) := by
  rw [send, encodeArgs_of_fits cmd hfits]
  exact if_pos hc

/-- Settles O29: an outbound instruction is a send, which encodes before it looks at the state. -/
theorem sendErrorsComeInOrder : Obligations.SendErrorsComeInOrder := by
  intro i s hd
  rw [exec_outbound s hd]
  exact ⟨send_of_tooLarge i.ftype (args := some i.payload) s,
    send_of_closed i.ftype (args := some i.payload)⟩

/-! ## The transport's notification (R260) -/

/-- `on_bytes` is `ProcessChunk` of the prefix, in the state with the rest of the queue; with nothing
to deliver or the lock taken it changes nothing. -/
theorem onBytes_eq (n : Nat) (s : State) :
    onBytes n s =
      if s.rxq.take n ≠ [] ∧ chunkReady s = true then
        deliver (s.rxq.take n) (s.setRxq (s.rxq.drop n))
      else .next s := by
  unfold onBytes
  split
  · rename_i hnone
    rw [if_neg (fun h => h.1 hnone)]
  · rename_i b bs hsome
    simp only [runChunk_eq_deliver, hsome, ne_eq, reduceCtorEq, not_false_eq_true, true_and]

/-- Settles O52: with the lock free the notification does not wait, and the prefix is `front`. -/
theorem onBytesDeliversAPrefix : Obligations.OnBytesDeliversAPrefix := by
  intro s rest front back ht hq hne hl
  have htake : (s.setTodo rest).rxq.take front.length = front := by simp [hq]
  have hdrop : (s.setTodo rest).rxq.drop front.length = back := by simp [hq]
  have hready : chunkReady (s.setTodo rest) = true := ready_of_lock_free (.rx front) hl
  rw [step_first ht (ready_of_lock_free _ hl), perform, onBytes_eq, htake, hdrop,
    if_pos ⟨hne, hready⟩]
  rfl

/-! ## A timeout (R245) -/

/-- Settles O49: a timeout never waits, and only a result is recorded. -/
theorem timeoutChangesNothing : Obligations.TimeoutChangesNothing := by
  intro s rest ht
  rw [step_first ht rfl]
  rfl

/-! ## No error stops the machine (R253) -/

/-- A send always answers a next state. -/
theorem send_total (cmd : Byte) (args : Option (List Byte)) (s : State) :
    ∃ t, send cmd args s = .next t := by
  obtain ⟨_, h⟩ | ⟨_, _, h⟩ | ⟨_, _, _, h⟩ | ⟨_, _, h⟩ := send_cases cmd args s
  all_goals exact ⟨_, h⟩

/-- Close always answers a next state. -/
theorem close_total (s : State) : ∃ t, close s = .next t := by
  unfold close
  split <;> exact ⟨_, rfl⟩

/-- Reset always answers a next state. -/
theorem reset_total (s : State) : ∃ t, reset s = .next t := by
  unfold reset
  split <;> exact ⟨_, rfl⟩

/-- Under R38 a byte of a chunk always answers a next state: it meets no slot without value (R24). -/
theorem byteIn_total (b : Byte) (last : Bool) {s : State} (h : PfInv s.pf) :
    ∃ t, byteIn b last s = .next t := by
  rcases hb : decByte b s.pf with ⟨pf, r⟩
  obtain ⟨_, hvalue⟩ := decByte_pfInv hb h
  simp only [byteIn, hb]
  split_ifs
  · exact ⟨_, rfl⟩
  · exact ⟨_, rfl⟩
  · exact ⟨_, rfl⟩
  · cases r with
    | noValue i => exact absurd rfl (hvalue i)
    | proceed | emit | desync | overrun => exact ⟨_, rfl⟩

/-- Under R38 `on_bytes` always answers a next state. -/
theorem onBytes_total (n : Nat) {s : State} (h : PfInv s.pf) : ∃ t, onBytes n s = .next t := by
  rw [onBytes_eq]
  split
  · exact deliver_total _ h
  · exact ⟨s, rfl⟩

/-- Under R38 every action answers a next state. -/
theorem perform_total (a : Action) {s : State} (h : PfInv s.pf) : ∃ t, perform a s = .next t := by
  cases a with
  | rx chunk =>
    obtain ⟨t, ht⟩ := deliver_total chunk h
    exact ⟨t, (runChunk_eq_deliver chunk s).trans ht⟩
  | byteIn b last => exact byteIn_total b last h
  | onBytes n => exact onBytes_total n h
  | send cmd args =>
    obtain ⟨t, ht⟩ := send_total cmd args s
    exact ⟨t, (exec_sendInstr cmd args s).trans ht⟩
  | call c =>
    obtain ⟨t, ht⟩ := send_total (expandCall c).1 (expandCall c).2 s
    exact ⟨t, (exec_sendInstr _ _ s).trans ht⟩
  | close => exact close_total s
  | reset => exact reset_total s
  | arrive | encode | encodeCmd | dispatch | encodeDateTimeForWrite | decodeDateTime | decodeU32BE
  | timeout | writeAnswers => exact ⟨_, rfl⟩

/-- A step answers a next state whenever DEC meets R38: it idles, or its action does. -/
theorem step_total {s : State} (h : PfInv s.pf) : ∃ t, step s = .next t := by
  unfold step
  split
  · exact perform_total _ h
  · exact ⟨s, rfl⟩

/-- Settles O60: a step answers a next state, which meets the invariant as every step keeps it. -/
theorem stepNeverStopsUnderTheInvariant : Obligations.StepNeverStopsUnderTheInvariant := by
  intro s hi
  obtain ⟨t, ht⟩ := step_total hi.pf
  exact ⟨t, ht, stepKeepsTheInvariant s t hi ht⟩

end Sys2Proof.Machine

/-! PROOFS. The statements about Close and Reset (`70_reset_and_hazards.md`): what each of them leaves
when it does not wait, and that the reset state meets the invariant. -/

namespace Sys2Proof.Machine

/-! ## Close and Reset with the exclusive access (R281, R284) -/

theorem close_of_lock_free {s : State} (hl : s.lock = .free) :
    close s = .next ((s.setPf .empty).setClosed true) :=
  if_neg (not_not.mpr hl)

theorem reset_of_lock_free {s : State} (hl : s.lock = .free) : reset s = .next (resetDecoder s) :=
  if_neg (not_not.mpr hl)

/-- Settles O47: with the lock free Close does not wait, and it writes DEC's `pf` and `closed` only. -/
theorem closeDiscardsThePartialFrame : Obligations.CloseDiscardsThePartialFrame := by
  intro s rest ht hl
  have hl' : (s.setTodo rest).lock = .free := hl
  rw [step_first ht (ready_of_lock_free .close hl), perform, close_of_lock_free hl']
  rfl

/-- Settles O48: with the lock free Reset does not wait, and `resetDecoder` writes each piece of the
hardware's state and nothing of the transport or the run. -/
theorem resetRestoresTheResetState : Obligations.ResetRestoresTheResetState := by
  intro s rest ht hl
  have hl' : (s.setTodo rest).lock = .free := hl
  rw [step_first ht (ready_of_lock_free .reset hl), perform, reset_of_lock_free hl']
  rfl

/-! ## The reset state (R37, R280) -/

/-- The reset state is one that Reset leaves as it is. -/
theorem resetDecoder_reset : resetDecoder State.reset = State.reset := rfl

/-- No frame is emitted at reset. -/
theorem framesWhole_reset : FramesWhole State.reset := fun _ hf => absurd hf List.not_mem_nil

/-- Settles O55: the invariant is what Reset makes, and the reset state is one that Reset leaves. -/
theorem resetMeetsTheInvariant : Obligations.ResetMeetsTheInvariant := by
  have hinv : StateInv State.reset := resetDecoder_reset ▸ resetDecoder_stateInv State.reset
  exact ⟨hinv, framesWhole_reset, rfl, rfl, rfl, fun _ => rfl, rfl, rfl, rfl, rfl⟩

end Sys2Proof.Machine
